-- ==== Sys2Proof/Word.lean ====
section
/-! DEFINITION. The words of CSIM-CORE: the W-bit value (reference W = 64, 00_scope.md R8), the T-bit opcode token
(T = 8, R9), the W+12-bit cell word (R10), and the datum and the cell that a cell word stands for (30_encoding.md R70 to
R74). Assumption log entries 1 and 4. -/

namespace Sys2Proof

/-- A W-bit field, W = 64: the DATA of a cell, and `pc` (R8, R25). DESIGN CHOICE (entry 1): the reference width. -/
abbrev Word := BitVec 64

/-- An opcode token, T = 8 bits (R9). -/
abbrev Token := BitVec 8

/-- A raw cell word of W + 12 = 76 bits (R10, R70). -/
abbrev CellWord := BitVec 76

/-- The kind of a datum (R73). The reserved kind 11 is no constructor: it is never written (R75). -/
inductive Kind where
  | absent
  | int
  | other
  deriving DecidableEq, Repr

/-- A datum: the KIND and DATA fields of an operand or of a stacked value (R16, R73). -/
structure Datum where
  kind : Kind
  data : Word
  deriving DecidableEq, Repr

/-- The absent operand: DATA is 0 (R73). -/
def Datum.absent : Datum := ⟨.absent, 0⟩

/-- The integer whose two's-complement field is `v` (R73). -/
def Datum.int (v : Word) : Datum := ⟨.int, v⟩

/-- A non-integer with the opaque payload `p` (R73). -/
def Datum.other (p : Word) : Datum := ⟨.other, p⟩

/-- What a memory cell holds: nothing, an instruction, or a stacked value (R22, R72). -/
inductive Cell where
  | empty
  | instr (opc : Token) (operand : Datum)
  | value (content : Datum)
  deriving DecidableEq, Repr

end Sys2Proof
end

