-- ==== Sys2Proof/Syntax.lean ====
section
/-! DEFINITION. The instruction set: the closed set of six opcodes (00_scope.md R2, 30_encoding.md R76), one constructor
per row of spec/opcode_table.json. Every instruction carries its operand datum, also where the handler ignores it
(R78), so that no bit of the cell is lost. -/

namespace Sys2Proof

/-- One instruction with its operand field (KIND, DATA). -/
inductive Instr where
  /-- R161: push the operand. -/
  | push (operand : Datum)
  /-- R162: pop an item and output it. -/
  | print (operand : Datum)
  /-- R163: jump to the operand. -/
  | call (operand : Datum)
  /-- R164: pop two integers, push their product. -/
  | mult (operand : Datum)
  /-- R165: pop a return address and jump to it. -/
  | ret (operand : Datum)
  /-- R166: end the run. -/
  | stop (operand : Datum)
  deriving DecidableEq, Repr

/-- The operand field of an instruction. -/
def Instr.operand : Instr → Datum
  | .push d => d
  | .print d => d
  | .call d => d
  | .mult d => d
  | .ret d => d
  | .stop d => d

end Sys2Proof
end

