-- ==== Sys2Proof/WellFormed.lean ====
section
/-! DEFINITION. Canonical datums and cells (30_encoding.md R74, R75) and well-formed instructions: the ones that some
canonical cell holds. -/

namespace Sys2Proof

/-- An ABSENT datum has DATA 0 (R73, R75). -/
def Datum.canonical (d : Datum) : Bool :=
  d.kind != .absent || d.data == 0#64

/-- The cells that a command or a step writes (R74): an operand is canonical, and a value is INT or OTHER. -/
def Cell.canonical : Cell → Bool
  | .empty => true
  | .instr _ d => d.canonical
  | .value d => d.kind != .absent

/-- An instruction is well-formed when its operand field is canonical; all four operand forms of every opcode are
(R78: an ignored operand may be any datum). -/
def Instr.wellFormed (i : Instr) : Bool :=
  i.operand.canonical

end Sys2Proof
end

