-- ==== Sys2Proof/Decode.lean ====
section
/-! DEFINITION. The cell word's layout (30_encoding.md R70), the raw-word decoder that refuses non-canonical words by name
(R75), the instruction decoder (R77), total on every word, and the encoder written from the same tables (R72, R73,
R76). -/

namespace Sys2Proof

/-- Why a word or a cell is no instruction. The first six name the non-canonical words of R75; the last two are R77's
UNRECOGNISED and NOT_AN_INSTRUCTION. -/
inductive Rejection where
  /-- TAG = 11. -/
  | reservedTag
  /-- KIND = 11 in an INSTR or VALUE word. -/
  | reservedKind
  /-- TAG = 00 with some other bit set. -/
  | emptyNotZero
  /-- TAG = 10 with OPC not 0. -/
  | valueOpcodeNotZero
  /-- TAG = 10 with KIND = ABSENT. -/
  | valueAbsent
  /-- KIND = ABSENT with DATA not 0. -/
  | absentDataNotZero
  /-- An INSTR cell whose token is none of the six. -/
  | unrecognised (opc : Token)
  /-- An EMPTY or VALUE cell. -/
  | notAnInstruction
  deriving DecidableEq, Repr

/-! ### Fields of the cell word (R70) -/

/-- TAG, bits 75:74. -/
def tagOf (w : CellWord) : BitVec 2 := w.extractLsb' 74 2

/-- OPC, bits 73:66. -/
def opcOf (w : CellWord) : Token := w.extractLsb' 66 8

/-- KIND, bits 65:64. -/
def kindBitsOf (w : CellWord) : BitVec 2 := w.extractLsb' 64 2

/-- DATA, bits 63:0. -/
def dataOf (w : CellWord) : Word := w.extractLsb' 0 64

/-- HDR, the top twelve bits 75:64. -/
def hdrOf (w : CellWord) : BitVec 12 := w.extractLsb' 64 12

/-- The word with the four given fields, TAG uppermost (R70). -/
def packFields (tag : BitVec 2) (opc : Token) (kind : BitVec 2) (data : Word) : CellWord :=
  tag ++ opc ++ kind ++ data

/-- KIND values (R73). -/
def Kind.bits : Kind → BitVec 2
  | .absent => 0b00#2
  | .int => 0b01#2
  | .other => 0b10#2

/-- The kind a KIND field names; 11 is reserved (R73). -/
def kindOfBits (b : BitVec 2) : Option Kind :=
  if b = 0b00#2 then some .absent
  else if b = 0b01#2 then some .int
  else if b = 0b10#2 then some .other
  else none

/-! ### Raw words to cells (R72, R74, R75) -/

/-- The cell a raw word stands for; a non-canonical word is refused as not a cell word (R75). -/
def cellOfWord (w : CellWord) : Except Rejection Cell :=
  if tagOf w = 0b00#2 then
    if w = 0#76 then .ok .empty else .error .emptyNotZero
  else if tagOf w = 0b11#2 then .error .reservedTag
  else
    match kindOfBits (kindBitsOf w) with
    | none => .error .reservedKind
    | some k =>
      if k = .absent ∧ dataOf w ≠ 0#64 then .error .absentDataNotZero
      else if tagOf w = 0b01#2 then .ok (.instr (opcOf w) ⟨k, dataOf w⟩)
      else if opcOf w ≠ 0#8 then .error .valueOpcodeNotZero
      else if k = .absent then .error .valueAbsent
      else .ok (.value ⟨k, dataOf w⟩)

/-! ### Cells to instructions (R76, R77) -/

/-- R77: the token alone selects the opcode; the operand is (KIND, DATA). -/
def decode : Cell → Except Rejection Instr
  | .empty => .error .notAnInstruction
  | .value _ => .error .notAnInstruction
  | .instr opc d =>
    if opc = 0x01#8 then .ok (.push d)
    else if opc = 0x02#8 then .ok (.print d)
    else if opc = 0x03#8 then .ok (.call d)
    else if opc = 0x04#8 then .ok (.mult d)
    else if opc = 0x05#8 then .ok (.ret d)
    else if opc = 0x06#8 then .ok (.stop d)
    else .error (.unrecognised opc)

/-- The instruction a raw cell word holds. -/
def decodeWord (w : CellWord) : Except Rejection Instr :=
  match cellOfWord w with
  | .ok c => decode c
  | .error r => .error r

/-! ### The encoder (R70, R72, R73, R76) -/

/-- The opcode number of an instruction (R76). -/
def Instr.opcode : Instr → Token
  | .push _ => 0x01#8
  | .print _ => 0x02#8
  | .call _ => 0x03#8
  | .mult _ => 0x04#8
  | .ret _ => 0x05#8
  | .stop _ => 0x06#8

/-- The INSTR cell that holds an instruction (R71). -/
def Instr.toCell (i : Instr) : Cell := .instr i.opcode i.operand

/-- The cell word of a cell (R74). -/
def Cell.toWord : Cell → CellWord
  | .empty => 0#76
  | .instr opc d => packFields 0b01#2 opc d.kind.bits d.data
  | .value d => packFields 0b10#2 0#8 d.kind.bits d.data

/-- The one word of a well-formed instruction. -/
def encode (i : Instr) : CellWord := i.toCell.toWord

/-! ### The opcode table's numbering (entry 10) -/

/-- The cell word that the opcode table's number `w` stands for. The table's match, mask and fixed fields number the bits of
HDR, bit 0 being cell bit 64 (R77); its encoding column and its source fields number the whole 76-bit word. Every `w`
below 2^12 is therefore read as an HDR with DATA 0: as a whole word no such number but 0 is a cell word at all, and 0 is
EMPTY either way. DESIGN CHOICE (entry 10). -/
def tableWord (w : Nat) : Option CellWord :=
  if w < 2 ^ 12 then some (BitVec.ofNat 76 (w * 2 ^ 64))
  else if w < 2 ^ 76 then some (BitVec.ofNat 76 w)
  else none

/-- The cell the opcode table's number `w` stands for, where it is one. -/
def tableCell (w : Nat) : Option Cell :=
  match tableWord w with
  | none => none
  | some v =>
    match cellOfWord v with
    | .ok c => some c
    | .error _ => none

/-- The instruction the decoder reads from the bits `w`, numbered as the opcode table numbers them. The length `nbits` adds
nothing: every instruction is one cell (R71), and the bits above `nbits` are 0. -/
def decodeTableWord (_nbits w : Nat) : Option Instr :=
  match tableCell w with
  | none => none
  | some c =>
    match decode c with
    | .ok i => some i
    | .error _ => none

end Sys2Proof
end

