-- ==== Sys2Proof/Config.lean ====
section
/-! DEFINITION. What is fixed for the machine: the bound on the memory size (00_scope.md R7) and the size `State.reset`
is built with (entry 2). The spec leaves no result open, so there is no free value here. -/

namespace Sys2Proof

/-- The largest memory size: `2^(W-1) - 1` at W = 64 (R7, R100). -/
def Config.maxSize : Nat := 2 ^ 63 - 1

/-- The size N with which `State.reset` is constructed. DESIGN CHOICE (entry 2): the spec leaves N a parameter; 100 is the
size of the source's own scenario (95_test_vectors.md W2). No statement rests on it: statements speak of `State.size`. -/
def Config.resetSize : Nat := 100

end Sys2Proof
end

