-- ==== Sys2Proof/Machine/State.lean ====
section
/-! DEFINITION. The state of CSIM-CORE as plain data (10_state.md R20): memory, `pc`, `sp`, ENGINE, RESP and the memory
size N; beside it the model's own two lists, the host commands still to be issued and the output events sent. The faults
and refusals of a step. The state after reset (R35). Assumption log entries 2, 3, 6, 7, 8, 11, 12. -/

namespace Sys2Proof.Machine

/-- ENGINE (R32). -/
inductive Engine where
  | ready
  | running
  deriving DecidableEq, Repr

/-- RESP.OUTCOME (R33). -/
inductive RespOutcome where
  | ok
  | stopped
  | ended
  | failed
  deriving DecidableEq, Repr

/-- RESP.ERR_KIND: the error kinds of 60_exceptions.md R201, in the order of their codes 0 to 8. -/
inductive ErrKind where
  | none
  | invalidAddressType
  | invalidAddressPointer
  | invalidInstructionType
  | stackOverflow
  | emptyStack
  | invalidMultArgType
  | unknownInstruction
  | valueOverflow
  deriving DecidableEq, Repr

/-- RESP, the response register (R33). -/
structure Resp where
  outcome : RespOutcome
  errKind : ErrKind
  errInfo : CellWord
  deriving DecidableEq, Repr

/-- An opcode argument of INSERT: the pair (IS_TOKEN, TOKEN) (R102). -/
structure OpcodeArg where
  isToken : Bool
  token : Token
  deriving DecidableEq, Repr

/-- The size argument of RESET: any integer, or something that is no integer; the precondition is checked by RESET
(R100). -/
inductive SizeArg where
  | int (v : Int)
  | other
  deriving DecidableEq, Repr

/-- The four host commands (40_host_interface.md R100, R103, R104, R106). INSERT's operand defaults to ABSENT (R104). -/
inductive Command where
  | reset (size : SizeArg)
  | setAddress (addr : Datum)
  | insert (op : OpcodeArg) (operand : Datum := Datum.absent)
  | execute
  deriving DecidableEq, Repr

/-- Memory: the non-EMPTY cells by address, addresses strictly rising (entry 3). An address that is not listed holds
EMPTY, the reset contents of every cell (R35). -/
abbrev Memory := List (Nat × Cell)

/-- The state of the machine. -/
structure State where
  /-- N, the number of cells, fixed by RESET (R7, R100). -/
  size : Nat
  /-- Mem[0..N-1] (R21). -/
  mem : Memory
  /-- The program counter, W bits, two's complement (R25). -/
  pc : Word
  /-- The stack pointer, 0..N; N is the empty stack (R28). -/
  sp : Nat
  /-- ENGINE (R32). -/
  engine : Engine
  /-- RESP (R33). -/
  resp : Resp
  /-- The model's own: the commands the host has yet to issue, first one first (entry 6). -/
  commands : List Command
  /-- The model's own: the events sent on the output port, oldest first (R109, entry 7). -/
  output : List Cell
  deriving DecidableEq, Repr

/-- What stops the machine with a fault. None of the spec's errors does: each is taken as R212 says and is a next state. -/
inductive Fault where
  /-- Raised by `readCell` and `writeCell` for an address outside 0..N-1, a cell that does not exist (R50, R52). SAFE: no
  state that meets `State.Inv` makes such an access, and the model stops where it does. -/
  | noSuchCell (address : Nat)
  deriving DecidableEq, Repr

/-- What the model gives no move. -/
inductive Refusal where
  /-- Raised by an arm of `exec` for an instruction without a meaning; no arm is left so. SAFE. -/
  | notModelled (mnemonic : String)
  /-- Raised by RESET for a size that breaks its precondition: the spec says a model refuses it (R100, D17). SAFE. -/
  | badResetSize
  /-- Raised by `issue` for a command issued while RUNNING, which is outside the interface (R101, D14, I16). `step` never
  issues one. UNSAFE for a host that does (entry 6). -/
  | commandWhileRunning
  deriving DecidableEq, Repr

/-- The response (OK, NONE, 0) (R33, R35). -/
def Resp.okay : Resp := ⟨.ok, .none, 0⟩

/-- What construction with `n` cells establishes (R35, R100), with no command to issue and no event sent. -/
def State.resetTo (n : Nat) : State where
  size := n
  mem := []
  pc := 0
  sp := n
  engine := .ready
  resp := Resp.okay
  commands := []
  output := []

/-- The machine right after reset (R35, R230), constructed with `Config.resetSize` cells (entry 2). -/
def State.reset : State := State.resetTo Config.resetSize

end Sys2Proof.Machine
end

