-- ==== Sys2Proof/Machine/Operands.lean ====
section
/-! DEFINITION. The operand forms: an INT datum as an address or a target (30_encoding.md R79), an integer item of the stack
(41_stack_primitives.md R127), the cell a pushed datum becomes (R121, R123), the datum INSERT stores (R104), and a W-bit
integer as a cell index. There are no register operands and no addressing modes (R24, R79). -/

namespace Sys2Proof.Machine

/-- `sint_W` (R12): the signed integer of a W-bit field. -/
def sintW (v : Word) : Int := v.toInt

/-- `enc_W` (R12): the W-bit two's-complement field of an integer. -/
def encW (x : Int) : Word := BitVec.ofInt 64 x

/-- The DATA of a datum of kind INT; a datum of any other kind is not an integer (R17, R79). -/
def intDatum? (d : Datum) : Option Word :=
  match d.kind with
  | .int => some d.data
  | .absent => none
  | .other => none

/-- The DATA of an integer item: a VALUE cell of kind INT, and no other cell (R127). -/
def intItem? (c : Cell) : Option Word :=
  match c with
  | .value d => intDatum? d
  | .instr _ _ => none
  | .empty => none

/-- The cell that pushing a datum writes: EMPTY for ABSENT, else a VALUE cell (R121, R123). -/
def stackedCell (d : Datum) : Cell :=
  match d.kind with
  | .absent => .empty
  | .int => .value d
  | .other => .value d

/-- The operand INSERT stores: DATA is 0 when the kind is ABSENT (R104). -/
def storedOperand (d : Datum) : Datum :=
  match d.kind with
  | .absent => Datum.absent
  | .int => d
  | .other => d

/-- The cell index that a W-bit integer names in a memory of `n` cells, if it is in 0..n-1 (R14, R103, R104). -/
def cellIndex? (n : Nat) (v : Word) : Option Nat :=
  if 0 ≤ sintW v ∧ sintW v < n then some (sintW v).toNat else none

end Sys2Proof.Machine
end

