-- ==== Sys2Proof/Machine/Flags.lean ====
section
/-! DEFINITION. CSIM-CORE has no flags and no condition codes (10_state.md R31). What stands in their place: the range check
of MULT's product (`fits_W`, 00_scope.md R12), and the numbers with which the status registers ENGINE and RESP read
(R32, R33, 60_exceptions.md R201). -/

namespace Sys2Proof.Machine

/-- `fits_W` (R12): the integer has a W-bit two's-complement field. -/
def fitsW (x : Int) : Bool :=
  decide (-(2 ^ 63) ≤ x) && decide (x ≤ 2 ^ 63 - 1)

/-- ENGINE as its one bit (R32). -/
def engineCode : Engine → BitVec 1
  | .ready => 0#1
  | .running => 1#1

/-- OUTCOME as its two bits (R33). -/
def outcomeCode : RespOutcome → BitVec 2
  | .ok => 0#2
  | .stopped => 1#2
  | .ended => 2#2
  | .failed => 3#2

/-- ERR_KIND as its four bits (R201). -/
def errKindCode : ErrKind → BitVec 4
  | .none => 0#4
  | .invalidAddressType => 1#4
  | .invalidAddressPointer => 2#4
  | .invalidInstructionType => 3#4
  | .stackOverflow => 4#4
  | .emptyStack => 5#4
  | .invalidMultArgType => 6#4
  | .unknownInstruction => 7#4
  | .valueOverflow => 8#4

end Sys2Proof.Machine
end

