-- ==== Sys2Proof/Machine/Ops.lean ====
section
/-! DEFINITION. The named operations over the state: reading and writing one cell, the field updates, taking an error
(60_exceptions.md R212, the whole of exception entry; there is no return from one, R215), ending a run, the output port,
and the stack primitives push and pop (41_stack_primitives.md). -/

namespace Sys2Proof.Machine

/-! ### Memory -/

/-- The cell at an address; an unlisted address holds EMPTY (R35, R57). -/
def Memory.read : Memory → Nat → Cell
  | [], _ => .empty
  | (b, c) :: m, a => if a = b then c else Memory.read m a

/-- The memory with nothing listed at an address. -/
def Memory.erase (m : Memory) (a : Nat) : Memory :=
  m.filter fun e => e.1 != a

/-- Lists a cell before the first higher address. -/
def Memory.place : Memory → Nat → Cell → Memory
  | [], a, c => [(a, c)]
  | (b, d) :: m, a, c => if a < b then (a, c) :: (b, d) :: m else (b, d) :: Memory.place m a c

/-- Writes one cell; writing EMPTY leaves the address unlisted (entry 3). -/
def Memory.write (m : Memory) (a : Nat) (c : Cell) : Memory :=
  if c = .empty then m.erase a else (m.erase a).place a c

/-- Every listed address is above `lo`, the addresses strictly rise, and no EMPTY is listed. -/
def Memory.wfAbove : Nat → Memory → Bool
  | _, [] => true
  | lo, (a, c) :: m => decide (lo ≤ a) && decide (c ≠ .empty) && Memory.wfAbove (a + 1) m

/-- The canonical form of memory: addresses strictly rising, no entry equal to what an unlisted address reads as. -/
def Memory.wf (m : Memory) : Bool := Memory.wfAbove 0 m

/-- Every listed cell lies in 0..n-1 and is a canonical cell (R21, R74). -/
def Memory.inside (n : Nat) (m : Memory) : Bool :=
  m.all fun e => decide (e.1 < n) && e.2.canonical

/-- `Mem[a]` (R12). -/
def State.cellAt (s : State) (a : Nat) : Cell := s.mem.read a

/-! ### Updates of one piece of state -/

/-- `pc <- v`. -/
def State.setPc (v : Word) (s : State) : State := { s with pc := v }

/-- `sp <- n`. -/
def State.setSp (n : Nat) (s : State) : State := { s with sp := n }

/-- `Mem[a] <- c`, where the cell exists. -/
def State.setCell (a : Nat) (c : Cell) (s : State) : State := { s with mem := s.mem.write a c }

/-- `emit(item)`: one event on the output port, which always accepts (R109, R110). -/
def State.emit (item : Cell) (s : State) : State := { s with output := s.output ++ [item] }

/-- `RESP <- r`. -/
def State.respond (r : Resp) (s : State) : State := { s with resp := r }

/-- `ENGINE <- e`. -/
def State.setEngine (e : Engine) (s : State) : State := { s with engine := e }

/-- The commands still to be issued. -/
def State.setCommands (cs : List Command) (s : State) : State := { s with commands := cs }

/-- The end of a run: ENGINE is READY and RESP holds the result (R106, R147); nothing else changes. -/
def State.finish (r : Resp) (s : State) : State := (s.setEngine .ready).respond r

/-- Taking an error: `raise K(info)` (R212). ENGINE is READY (a command that fails finds it so already, R101), RESP is
(FAILED, K, info), and nothing else is written: no pc is saved, no handler is entered, effects already made stay (R200,
R213). -/
def State.fail (k : ErrKind) (info : CellWord) (s : State) : State := s.finish ⟨.failed, k, info⟩

/-! ### How an operation ends -/

/-- An operation gives a result, raises an error of the spec, or would touch a cell that does not exist. -/
inductive Done (α : Type) where
  | ok (a : α) (s : State)
  | raised (k : ErrKind) (info : CellWord) (s : State)
  | noCell (address : Nat)
  deriving DecidableEq, Repr

/-- Statements run in the order written; an error stops the ones after it and undoes nothing (R13). -/
def Done.andThen {α β : Type} (d : Done α) (f : α → State → Done β) : Done β :=
  match d with
  | .ok a s => f a s
  | .raised k info s => .raised k info s
  | .noCell a => .noCell a

/-- The end of a handler: go on in the state it left, or take the error it raised (R140, R212). -/
def Done.close (d : Done Unit) : Host.Outcome State Fault Refusal :=
  match d with
  | .ok _ s => .next s
  | .raised k info s => .next (s.fail k info)
  | .noCell a => .fault (.noSuchCell a)

/-! ### Access to one cell (R51) -/

/-- Reads the cell at `a`. -/
def readCell (a : Nat) (s : State) : Done Cell :=
  if a < s.size then .ok (s.cellAt a) s else .noCell a

/-- Writes the cell at `a`. -/
def writeCell (a : Nat) (c : Cell) (s : State) : Done Unit :=
  if a < s.size then .ok () (s.setCell a c) else .noCell a

/-! ### The stack primitives -/

/-- The cell a push checks and writes: `sp - 1`, none at `sp = 0` (R121, R122). -/
def pushTarget? (s : State) : Option Nat :=
  if s.sp = 0 then none else some (s.sp - 1)

/-- The cell a pop reads and clears: `sp`, none at `sp = N` (R124). -/
def popTarget? (s : State) : Option Nat :=
  if s.sp = s.size then none else some s.sp

/-- push (R121): checks only the cell it is about to write, then writes it, and advances `pc`. -/
def push (d : Datum) (s : State) : Done Unit :=
  match pushTarget? s with
  | none => .raised .stackOverflow 0 s
  | some a =>
    (readCell a s).andThen fun c s =>
      if c ≠ .empty then .raised .stackOverflow 0 s
      else
        (writeCell a (stackedCell d) (s.setSp a)).andThen fun _ s =>
          .ok () (s.setPc (s.pc + 1))

/-- pop (R124): returns the whole non-EMPTY cell it finds, of whatever kind (R126), and clears it; `pc` is untouched
(R125). -/
def pop (s : State) : Done Cell :=
  match popTarget? s with
  | none => .raised .emptyStack 0 s
  | some a =>
    (readCell a s).andThen fun c s =>
      if c = .empty then .raised .emptyStack 0 s
      else
        (writeCell a .empty s).andThen fun _ s =>
          .ok c (s.setSp (a + 1))

end Sys2Proof.Machine
end

