-- ==== Sys2Proof/Machine/HostPort.lean ====
section
/-! DEFINITION. The host command port (40_host_interface.md R100 to R106) and the observation port (R111). -/

namespace Sys2Proof.Machine

/-- The memory size a RESET argument gives, where it meets the precondition `1 <= size <= 2^(W-1) - 1` (R100). -/
def resetSize? : SizeArg → Option Nat
  | .int v => if 1 ≤ v ∧ v ≤ (Config.maxSize : Int) then some v.toNat else none
  | .other => none

/-- RESET (R100): every piece of the spec's state gets its reset value (R35). The output port's history and the host's
further commands are outside the block and stay (entries 6 and 7). -/
def issueReset (size : SizeArg) (s : State) : Host.Outcome State Fault Refusal :=
  match resetSize? size with
  | none => .refused .badResetSize
  | some n => .next { State.resetTo n with commands := s.commands, output := s.output }

/-- SET_ADDRESS (R103): the integer check, then the range check. -/
def issueSetAddress (addr : Datum) (s : State) : Host.Outcome State Fault Refusal :=
  match intDatum? addr with
  | none => .next (s.fail .invalidAddressType 0)
  | some v =>
    match cellIndex? s.size v with
    | none => .next (s.fail .invalidAddressPointer 0)
    | some _ => .next ((s.setPc v).respond Resp.okay)

/-- INSERT (R104): the token check, then the range check of `pc`; any token is stored, whatever the cell held. -/
def issueInsert (op : OpcodeArg) (operand : Datum) (s : State) : Host.Outcome State Fault Refusal :=
  if op.isToken = false then .next (s.fail .invalidInstructionType 0)
  else
    match cellIndex? s.size s.pc with
    | none => .next (s.fail .invalidAddressPointer 0)
    | some a =>
      ((writeCell a (.instr op.token (storedOperand operand)) s).andThen fun _ s =>
        .ok () ((s.setPc (s.pc + 1)).respond Resp.okay)).close

/-- EXECUTE (R106): the engine is RUNNING; the run loop's iterations follow, one a step, and write RESP when the run ends.
Neither `pc`, `sp` nor memory is reset. -/
def issueExecute (s : State) : Host.Outcome State Fault Refusal :=
  .next (s.setEngine .running)

/-- One host command. While RUNNING a command has no move (R101). -/
def issue (c : Command) (s : State) : Host.Outcome State Fault Refusal :=
  match s.engine with
  | .running => .refused .commandWhileRunning
  | .ready =>
    match c with
    | .reset size => issueReset size s
    | .setAddress addr => issueSetAddress addr s
    | .insert op operand => issueInsert op operand s
    | .execute => issueExecute s

/-- READY (R222): with no command the block does nothing; otherwise the next command is issued (R101). -/
def serveHost (s : State) : Host.Outcome State Fault Refusal :=
  match s.commands with
  | [] => .next s
  | c :: cs => issue c (s.setCommands cs)

/-- What the host may ask to read (R111). -/
inductive Probe where
  | pc
  | sp
  | cell (a : Nat)
  | engine
  | resp
  deriving DecidableEq, Repr

/-- What the observation port shows: registers in their bits, `sp` as an integer, a cell as its word. -/
inductive Reading where
  | pc (v : Word)
  | sp (n : Nat)
  | cell (w : CellWord)
  | engine (b : BitVec 1)
  | resp (outcome : BitVec 2) (errKind : BitVec 4) (errInfo : CellWord)
  deriving DecidableEq, Repr

/-- An observation read: only while READY, a cell only at an address in 0..N-1, and without side effect (R111). -/
def observe (p : Probe) (s : State) : Option Reading :=
  match s.engine with
  | .running => none
  | .ready =>
    match p with
    | .pc => some (.pc s.pc)
    | .sp => some (.sp s.sp)
    | .cell a => if a < s.size then some (.cell (s.cellAt a).toWord) else none
    | .engine => some (.engine (engineCode s.engine))
    | .resp =>
      some (.resp (outcomeCode s.resp.outcome) (errKindCode s.resp.errKind) s.resp.errInfo)

end Sys2Proof.Machine
end

