-- ==== Sys2Proof/Machine/Arithmetic.lean ====
section
/-! DEFINITION. The arithmetic family: MULT (43_instructions.md R164). -/

namespace Sys2Proof.Machine

/-- R164: pop twice, require two integer items, form the exact product, require it to fit, push it. Items popped before an
error stay popped (R239); the operand is ignored (R78). -/
def execMult (_operand : Datum) (s : State) : Host.Outcome State Fault Refusal :=
  ((pop s).andThen fun a1 s =>
    (pop s).andThen fun a2 s =>
      match intItem? a1, intItem? a2 with
      | some x, some y =>
        if fitsW (sintW x * sintW y) then push (Datum.int (encW (sintW x * sintW y))) s
        else .raised .valueOverflow 0 s
      | _, _ => .raised .invalidMultArgType 0 s).close

end Sys2Proof.Machine
end

