-- ==== Sys2Proof/Machine/Control.lean ====
section
/-! DEFINITION. The control family: CALL (43_instructions.md R163), RET (R165) and STOP (R166). -/

namespace Sys2Proof.Machine

/-- R163: `pc` is replaced by the INT operand, whatever its range; no return address is pushed. -/
def execCall (operand : Datum) (s : State) : Host.Outcome State Fault Refusal :=
  match intDatum? operand with
  | none => .next (s.fail .invalidAddressType 0)
  | some target => .next (s.setPc target)

/-- R165: pop an item; an integer item replaces `pc`, any other stays popped and is an error. The operand is ignored
(R78). -/
def execRet (_operand : Datum) (s : State) : Host.Outcome State Fault Refusal :=
  ((pop s).andThen fun a s =>
    match intItem? a with
    | none => .raised .invalidAddressType 0 s
    | some target => .ok () (s.setPc target)).close

/-- R166: the run ends STOPPED; `pc` still addresses the STOP cell. The operand is ignored (R78). -/
def execStop (_operand : Datum) (s : State) : Host.Outcome State Fault Refusal :=
  .next (s.finish ⟨.stopped, .none, 0⟩)

end Sys2Proof.Machine
end

