-- ==== Sys2Proof/Machine/Stack.lean ====
section
/-! DEFINITION. The stack family: PUSH (43_instructions.md R161) and PRINT (R162). -/

namespace Sys2Proof.Machine

/-- R161: push the operand datum, of any kind. -/
def execPush (operand : Datum) (s : State) : Host.Outcome State Fault Refusal :=
  (push operand s).close

/-- R162: pop one item, emit it as it is, then advance `pc`; the operand is ignored (R78). -/
def execPrint (_operand : Datum) (s : State) : Host.Outcome State Fault Refusal :=
  ((pop s).andThen fun item s => .ok () ((s.emit item).setPc (s.pc + 1))).close

end Sys2Proof.Machine
end

