-- ==== Sys2Proof/Machine/Dispatch.lean ====
section
/-! DEFINITION. One arm per instruction of 30_encoding.md R76, each a call of its meaning. -/

namespace Sys2Proof.Machine

def exec (i : Instr) (s : State) : Host.Outcome State Fault Refusal :=
  match i with
  | .push d => Sys2Proof.Machine.execPush d s
  | .print d => Sys2Proof.Machine.execPrint d s
  | .call d => Sys2Proof.Machine.execCall d s
  | .mult d => Sys2Proof.Machine.execMult d s
  | .ret d => Sys2Proof.Machine.execRet d s
  | .stop d => Sys2Proof.Machine.execStop d s

end Sys2Proof.Machine
end

