-- ==== Sys2Proof/Machine/RunLoop.lean ====
section
/-! DEFINITION. One iteration of the run loop (42_run_loop.md R140): the loop test, the fetch, the decode and the handler. -/

namespace Sys2Proof.Machine

/-- The loop test `pc >= N`, on integers (R142). -/
def pastEnd (s : State) : Bool := decide ((s.size : Int) ≤ sintW s.pc)

/-- Fetch (R143): reads `Mem[pc]` and writes nothing; a negative `pc` raises InvalidAddressPointer and reads nothing
(R144). -/
def fetch (s : State) : Done Cell :=
  if sintW s.pc < 0 then .raised .invalidAddressPointer 0 s
  else readCell (sintW s.pc).toNat s

/-- Decode and dispatch (R145): a recognised opcode runs its handler; any other fetched cell raises UnknownInstruction,
carrying the fetched cell word (R167). -/
def dispatch (c : Cell) (s : State) : Host.Outcome State Fault Refusal :=
  match decode c with
  | .ok i => exec i s
  | .error _ => .next (s.fail .unknownInstruction c.toWord)

/-- One iteration (R140): the run ends ENDED when `pc >= N`, tested before every fetch; otherwise one instruction is
executed (R141). -/
def iterate (s : State) : Host.Outcome State Fault Refusal :=
  if pastEnd s then .next (s.finish ⟨.ended, .none, 0⟩)
  else
    match fetch s with
    | .ok c s => dispatch c s
    | .raised k info s => .next (s.fail k info)
    | .noCell a => .fault (.noSuchCell a)

end Sys2Proof.Machine
end

