-- ==== Sys2Proof/Machine/Step.lean ====
section
/-! DEFINITION. One step of the machine: while RUNNING one iteration of the run loop (42_run_loop.md R140, R141), while READY
one host command or nothing (40_host_interface.md R101, 60_exceptions.md R222). Assumption log entries 5, 6 and 9. -/

namespace Sys2Proof.Machine

/-- One step. DESIGN CHOICE (entry 5): commands other than EXECUTE are one step, EXECUTE is one step and then one step for
each iteration of its loop. -/
def step (s : State) : Host.Outcome State Fault Refusal :=
  match s.engine with
  | .running => iterate s
  | .ready => serveHost s

/-- The state in which the next step fetches and runs the instruction of the opcode table's number `w` (entry 9): the engine
is RUNNING, as an EXECUTE leaves it, `pc` names a cell (address 0 if it named none), and that cell holds the
instruction. A number that is no cell word cannot be stored and leaves the cell EMPTY. -/
def State.withFetchWord (s : State) (_nbits w : Nat) : State :=
  let at? := cellIndex? s.size s.pc
  let t := (if at? = none then s.setPc 0 else s).setEngine .running
  t.setCell (at?.getD 0) ((tableCell w).getD .empty)

end Sys2Proof.Machine
end

