-- ==== Sys2Proof/Safety.lean ====
section
/-! DEFINITION. What a legal state is, and where a legal state may stop. -/

namespace Sys2Proof.Machine

/-- RESP is one of the combinations R33 lists: ERR_KIND is NONE exactly when OUTCOME is not FAILED, and ERR_INFO is 0 but
for UnknownInstruction. -/
def Resp.legal (r : Resp) : Bool :=
  decide (r.errKind = .none ↔ r.outcome ≠ .failed) && decide (r.errKind = .unknownInstruction ∨ r.errInfo = 0)

/-- An output event is a non-EMPTY canonical cell (R74, R109, R126). -/
def legalEvent (c : Cell) : Bool := decide (c ≠ .empty) && c.canonical

/-- The legal states: a legal memory size (R7), memory in canonical form, inside 0..N-1 and of canonical cells (R21, R74,
R75), `sp` in 0..N (R28, R29), a legal RESP (R33), and output events that are items (R109). `pc` may be any W-bit
integer (R26). -/
abbrev State.Inv (s : State) : Prop :=
  1 ≤ s.size ∧ s.size ≤ Config.maxSize ∧ s.mem.wf = true ∧ s.mem.inside s.size = true ∧ s.sp ≤ s.size ∧
    s.resp.legal = true ∧ s.output.all legalEvent = true

/-- The one stop of a legal state: the host's next command is a RESET whose size breaks its precondition (R100, R238). -/
def State.badResetNext (s : State) : Prop :=
  s.engine = .ready ∧ ∃ size rest, s.commands = .reset size :: rest ∧ resetSize? size = none

end Sys2Proof.Machine
end

