-- ==== Sys2Proof/Certificates/Slice0/Obligations.lean ====
section
/-! DEFINITION. The statements for the provers, in the order of OBLIGATIONS.json. A result is written as the whole next state,
so that every field not named is said to be unchanged. -/

open Sys2Proof Sys2Proof.Machine

/-! ### Encoding -/

/-- Decoding the word of a well-formed instruction gives the instruction back, whatever its operand. -/
def Obligations.EncodeDecodeRoundTrip : Prop :=
  ∀ i : Instr, i.wellFormed = true → decodeWord (encode i) = .ok i

/-- A word that decodes is the encoding of the well-formed instruction it decodes to: no bit of it is dropped. -/
def Obligations.DecodedWordsAreEncodings : Prop :=
  ∀ (w : CellWord) (i : Instr), decodeWord w = .ok i → encode i = w ∧ i.wellFormed = true

/-- Canonical cells and the words the raw decoder accepts stand for each other, one to one. -/
def Obligations.CanonicalCellsMatchTheirWords : Prop :=
  (∀ c : Cell, c.canonical = true → cellOfWord c.toWord = .ok c) ∧
    ∀ (w : CellWord) (c : Cell), cellOfWord w = .ok c → c.toWord = w ∧ c.canonical = true

/-- R75: the raw decoder refuses exactly the listed words; no step makes a non-canonical cell; reset lists only EMPTY. -/
def Obligations.NonCanonicalWordsRefusedAndUnreached : Prop :=
  (∀ w : CellWord,
      (∃ r, cellOfWord w = .error r) ↔
        tagOf w = 0b11#2 ∨
          (tagOf w ≠ 0b00#2 ∧ kindBitsOf w = 0b11#2) ∨
          (tagOf w = 0b10#2 ∧ (kindBitsOf w = 0b00#2 ∨ opcOf w ≠ 0#8)) ∨
          (tagOf w = 0b00#2 ∧ w ≠ 0#76) ∨
          (tagOf w ≠ 0b00#2 ∧ kindBitsOf w = 0b00#2 ∧ dataOf w ≠ 0#64)) ∧
    (∀ s t : State,
      (∀ a, (s.cellAt a).canonical = true) → step s = .next t → ∀ a, (t.cellAt a).canonical = true) ∧
    ∀ a, State.reset.cellAt a = .empty

/-- The opcode depends on the header alone, by the table's six patterns, and the operand is the word's KIND and DATA. -/
def Obligations.HeaderSelectsOpcode : Prop :=
  ∀ w : CellWord, (∃ c, cellOfWord w = .ok c) →
    ((∃ d, decodeWord w = .ok (.push d)) ↔ hdrOf w &&& 0xFFC#12 = 0x404#12) ∧
    ((∃ d, decodeWord w = .ok (.print d)) ↔ hdrOf w &&& 0xFFC#12 = 0x408#12) ∧
    ((∃ d, decodeWord w = .ok (.call d)) ↔ hdrOf w &&& 0xFFC#12 = 0x40C#12) ∧
    ((∃ d, decodeWord w = .ok (.mult d)) ↔ hdrOf w &&& 0xFFC#12 = 0x410#12) ∧
    ((∃ d, decodeWord w = .ok (.ret d)) ↔ hdrOf w &&& 0xFFC#12 = 0x414#12) ∧
    ((∃ d, decodeWord w = .ok (.stop d)) ↔ hdrOf w &&& 0xFFC#12 = 0x418#12) ∧
    ∀ i, decodeWord w = .ok i →
      i.operand.kind.bits = kindBitsOf w ∧ i.operand.data = dataOf w

/-- The words of R84's table, written out, decode to the cells they stand for. -/
def Obligations.ListedWordsDecode : Prop :=
  decodeWord 0x40500000000000003F1#76 = .ok (.push (Datum.int 1009)) ∧
    decodeWord 0x4080000000000000000#76 = .ok (.print Datum.absent) ∧
    decodeWord 0x40D0000000000000032#76 = .ok (.call (Datum.int 50)) ∧
    decodeWord 0x4100000000000000000#76 = .ok (.mult Datum.absent) ∧
    decodeWord 0x4140000000000000000#76 = .ok (.ret Datum.absent) ∧
    decodeWord 0x4180000000000000000#76 = .ok (.stop Datum.absent) ∧
    decodeWord 0x405FFFFFFFFFFFFFFFF#76 = .ok (.push (Datum.int (-1))) ∧
    cellOfWord 0x80100000000000003F2#76 = .ok (.value (Datum.int 1010)) ∧
    cellOfWord 0x0000000000000000000#76 = .ok .empty

/-! ### The instructions -/

/-- R161, PUSH: the header, the result for every operand kind, the one error, and a PUSH that would write its own cell. -/
def Obligations.PushFollowsItsRule : Prop :=
  (∀ d, hdrOf (encode (.push d)) &&& 0xFFC#12 = 0x404#12) ∧
    (∀ (d : Datum) (s : State), 0 < s.sp → s.sp ≤ s.size → s.cellAt (s.sp - 1) = .empty →
      exec (.push d) s =
        .next { s with
          mem := s.mem.write (s.sp - 1) (if d.kind = .absent then .empty else .value d)
          sp := s.sp - 1
          pc := s.pc + 1 }) ∧
    (∀ (d : Datum) (s : State), (s.sp = 0 ∨ s.sp ≤ s.size ∧ s.cellAt (s.sp - 1) ≠ .empty) →
      exec (.push d) s = .next { s with engine := .ready, resp := ⟨.failed, .stackOverflow, 0⟩ }) ∧
    ∀ (d : Datum) (s : State) (a : Nat), s.engine = .running → s.sp ≤ s.size → s.sp = a + 1 →
      sintW s.pc = a → decode (s.cellAt a) = .ok (.push d) →
      step s = .next { s with engine := .ready, resp := ⟨.failed, .stackOverflow, 0⟩ }

/-- R162, PRINT: the header, the result whatever the item's kind, and the one error, which sends no event. -/
def Obligations.PrintFollowsItsRule : Prop :=
  (∀ d, hdrOf (encode (.print d)) &&& 0xFFC#12 = 0x408#12) ∧
    (∀ (d : Datum) (s : State), s.sp < s.size → s.cellAt s.sp ≠ .empty →
      exec (.print d) s =
        .next { s with
          mem := s.mem.write s.sp .empty
          sp := s.sp + 1
          output := s.output ++ [s.cellAt s.sp]
          pc := s.pc + 1 }) ∧
    ∀ (d : Datum) (s : State), (s.sp = s.size ∨ s.sp < s.size ∧ s.cellAt s.sp = .empty) →
      exec (.print d) s = .next { s with engine := .ready, resp := ⟨.failed, .emptyStack, 0⟩ }

/-- R163, CALL: the header, the jump, the type error, and what the next step does at a target past the end, below 0, at a cell
that holds no instruction, and at the CALL itself. -/
def Obligations.CallFollowsItsRule : Prop :=
  (∀ d, hdrOf (encode (.call d)) &&& 0xFFC#12 = 0x40C#12) ∧
    (∀ (v : Word) (s : State), exec (.call (Datum.int v)) s = .next { s with pc := v }) ∧
    (∀ (d : Datum) (s : State), d.kind ≠ .int →
      exec (.call d) s = .next { s with engine := .ready, resp := ⟨.failed, .invalidAddressType, 0⟩ }) ∧
    (∀ (v : Word) (s : State), s.engine = .running → (s.size : Int) ≤ sintW v →
      step { s with pc := v } = .next { s with pc := v, engine := .ready, resp := ⟨.ended, .none, 0⟩ }) ∧
    (∀ (v : Word) (s : State), s.engine = .running → sintW v < 0 →
      step { s with pc := v } =
        .next { s with pc := v, engine := .ready, resp := ⟨.failed, .invalidAddressPointer, 0⟩ }) ∧
    (∀ (v : Word) (s : State) (a : Nat), s.engine = .running → sintW v = a → a < s.size →
      (∀ opc d, s.cellAt a ≠ .instr opc d) →
      step { s with pc := v } =
        .next { s with
          pc := v, engine := .ready, resp := ⟨.failed, .unknownInstruction, (s.cellAt a).toWord⟩ }) ∧
    ∀ (s : State) (a : Nat), s.engine = .running → sintW s.pc = a → a < s.size →
      decode (s.cellAt a) = .ok (.call (Datum.int s.pc)) → step s = .next s

/-- R164, MULT: the header, the exact product pushed where it fits, the four errors in their order with what each leaves
popped, and that StackOverflow cannot occur. -/
def Obligations.MultFollowsItsRule : Prop :=
  (∀ d, hdrOf (encode (.mult d)) &&& 0xFFC#12 = 0x410#12) ∧
    (∀ (d : Datum) (s : State) (x y : Word), s.sp + 1 < s.size →
      s.cellAt s.sp = .value (Datum.int x) → s.cellAt (s.sp + 1) = .value (Datum.int y) →
      -(2 ^ 63) ≤ x.toInt * y.toInt → x.toInt * y.toInt ≤ 2 ^ 63 - 1 →
      ∃ p : Word, p.toInt = x.toInt * y.toInt ∧
        exec (.mult d) s =
          .next { s with
            mem := (s.mem.write s.sp .empty).write (s.sp + 1) (.value (Datum.int p))
            sp := s.sp + 1
            pc := s.pc + 1 }) ∧
    (∀ (d : Datum) (s : State), (s.sp = s.size ∨ s.sp < s.size ∧ s.cellAt s.sp = .empty) →
      exec (.mult d) s = .next { s with engine := .ready, resp := ⟨.failed, .emptyStack, 0⟩ }) ∧
    (∀ (d : Datum) (s : State), s.sp < s.size → s.cellAt s.sp ≠ .empty →
      (s.sp + 1 = s.size ∨ s.cellAt (s.sp + 1) = .empty) →
      exec (.mult d) s =
        .next { s with
          mem := s.mem.write s.sp .empty
          sp := s.sp + 1
          engine := .ready
          resp := ⟨.failed, .emptyStack, 0⟩ }) ∧
    (∀ (d : Datum) (s : State), s.sp + 1 < s.size → s.cellAt s.sp ≠ .empty → s.cellAt (s.sp + 1) ≠ .empty →
      (¬ ∃ x y, s.cellAt s.sp = .value (Datum.int x) ∧ s.cellAt (s.sp + 1) = .value (Datum.int y)) →
      exec (.mult d) s =
        .next { s with
          mem := (s.mem.write s.sp .empty).write (s.sp + 1) .empty
          sp := s.sp + 2
          engine := .ready
          resp := ⟨.failed, .invalidMultArgType, 0⟩ }) ∧
    (∀ (d : Datum) (s : State) (x y : Word), s.sp + 1 < s.size →
      s.cellAt s.sp = .value (Datum.int x) → s.cellAt (s.sp + 1) = .value (Datum.int y) →
      (x.toInt * y.toInt < -(2 ^ 63) ∨ 2 ^ 63 - 1 < x.toInt * y.toInt) →
      exec (.mult d) s =
        .next { s with
          mem := (s.mem.write s.sp .empty).write (s.sp + 1) .empty
          sp := s.sp + 2
          engine := .ready
          resp := ⟨.failed, .valueOverflow, 0⟩ }) ∧
    ∀ (d : Datum) (s t : State), exec (.mult d) s = .next t → t.resp.errKind = .stackOverflow → t.resp = s.resp

/-- R165, RET: the header, the jump to a popped integer, the two errors, that the item of a type error stays popped, and what
the next step does at a target past the end or below 0. -/
def Obligations.RetFollowsItsRule : Prop :=
  (∀ d, hdrOf (encode (.ret d)) &&& 0xFFC#12 = 0x414#12) ∧
    (∀ (d : Datum) (s : State) (v : Word), s.sp < s.size → s.cellAt s.sp = .value (Datum.int v) →
      exec (.ret d) s = .next { s with mem := s.mem.write s.sp .empty, sp := s.sp + 1, pc := v }) ∧
    (∀ (d : Datum) (s : State), (s.sp = s.size ∨ s.sp < s.size ∧ s.cellAt s.sp = .empty) →
      exec (.ret d) s = .next { s with engine := .ready, resp := ⟨.failed, .emptyStack, 0⟩ }) ∧
    (∀ (d : Datum) (s : State), s.sp < s.size → s.cellAt s.sp ≠ .empty →
      (∀ v, s.cellAt s.sp ≠ .value (Datum.int v)) →
      exec (.ret d) s =
        .next { s with
          mem := s.mem.write s.sp .empty
          sp := s.sp + 1
          engine := .ready
          resp := ⟨.failed, .invalidAddressType, 0⟩ }) ∧
    ∀ (d : Datum) (s t : State) (v : Word), s.engine = .running → s.sp < s.size →
      s.cellAt s.sp = .value (Datum.int v) → exec (.ret d) s = .next t →
      ((s.size : Int) ≤ sintW v →
        step t = .next { t with engine := .ready, resp := ⟨.ended, .none, 0⟩ }) ∧
      (sintW v < 0 →
        step t = .next { t with engine := .ready, resp := ⟨.failed, .invalidAddressPointer, 0⟩ })

/-- STOP: the header, and the run ends STOPPED with nothing else changed (R166); the next EXECUTE stops again at once. That
EXECUTE and each iteration are steps of their own, so that three steps pass, and that the EXECUTE stands in
`State.commands`, is the model's own (entries 5 and 6). -/
def Obligations.StopFollowsItsRule : Prop :=
  (∀ d, hdrOf (encode (.stop d)) &&& 0xFFC#12 = 0x418#12) ∧
    (∀ (d : Datum) (s : State),
      exec (.stop d) s = .next { s with engine := .ready, resp := ⟨.stopped, .none, 0⟩ }) ∧
    ∀ (d : Datum) (s : State) (a : Nat) (rest : List Command), s.engine = .running → sintW s.pc = a →
      a < s.size → decode (s.cellAt a) = .ok (.stop d) → s.commands = .execute :: rest →
      Sys2Proof.core.run 3 s =
        .next { s with commands := rest, engine := .ready, resp := ⟨.stopped, .none, 0⟩ }

/-- R167: a fetched cell that is no INSTR cell with one of the six tokens raises UnknownInstruction, carrying the cell word,
whose OPC field is the token (0 for EMPTY and VALUE); nothing else changes. -/
def Obligations.UnrecognisedCellsFail : Prop :=
  (∀ c : Cell, (∃ r, decode c = .error r) ↔
      ∀ opc d, c = .instr opc d → opc = 0#8 ∨ 0x06#8 < opc) ∧
    (∀ (s : State) (a : Nat), s.engine = .running → sintW s.pc = a → a < s.size →
      (∃ r, decode (s.cellAt a) = .error r) →
      step s =
        .next { s with engine := .ready, resp := ⟨.failed, .unknownInstruction, (s.cellAt a).toWord⟩ }) ∧
    (∀ opc d, tagOf (Cell.instr opc d).toWord = 0b01#2 ∧ opcOf (Cell.instr opc d).toWord = opc) ∧
    (∀ d, tagOf (Cell.value d).toWord = 0b10#2 ∧ opcOf (Cell.value d).toWord = 0#8) ∧
    tagOf Cell.empty.toWord = 0b00#2 ∧ opcOf Cell.empty.toWord = 0#8

/-- R78: PRINT, MULT, RET and STOP ignore the operand; PUSH stores it and CALL jumps to it. -/
def Obligations.OnlyPushAndCallReadTheOperand : Prop :=
  (∀ (d e : Datum) (s : State), exec (.print d) s = exec (.print e) s ∧ exec (.mult d) s = exec (.mult e) s ∧
      exec (.ret d) s = exec (.ret e) s ∧ exec (.stop d) s = exec (.stop e) s) ∧
    (∀ (v : Word) (s t : State), 0 < s.sp → s.sp ≤ s.size → s.cellAt (s.sp - 1) = .empty →
      exec (.push (Datum.int v)) s = .next t → t.cellAt (s.sp - 1) = .value (Datum.int v)) ∧
    ∀ (v : Word) (s t : State), exec (.call (Datum.int v)) s = .next t → t.pc = v

/-! ### Frames -/

/-- The frame of PUSH: only the cell it computes is stored to; `sp` moves with a success, ENGINE and RESP with an error. -/
def Obligations.PushFrame : Prop :=
  ∀ (d : Datum) (s t : State), exec (.push d) s = .next t →
    t.size = s.size ∧ t.output = s.output ∧ t.commands = s.commands ∧
    (∀ a, pushTarget? s ≠ some a → t.cellAt a = s.cellAt a) ∧
    ((t.sp + 1 = s.sp ∧ t.engine = s.engine ∧ t.resp = s.resp) ∨
      t = { s with engine := .ready, resp := ⟨.failed, .stackOverflow, 0⟩ })

/-- The frame of PRINT and RET: only the popped cell is stored to, and it is cleared; PRINT may send one event, RET none. -/
def Obligations.PrintAndRetFrame : Prop :=
  ∀ (d : Datum) (s t : State), (exec (.print d) s = .next t ∨ exec (.ret d) s = .next t) →
    t.size = s.size ∧ t.commands = s.commands ∧
    (∀ a, popTarget? s ≠ some a → t.cellAt a = s.cellAt a) ∧
    (∀ a, popTarget? s = some a → t.cellAt a = .empty) ∧
    (t.sp = s.sp ∨ t.sp = s.sp + 1) ∧
    (exec (.ret d) s = .next t → t.output = s.output) ∧
    (t.output = s.output ∨ t.output = s.output ++ [s.cellAt s.sp]) ∧
    ((t.engine = s.engine ∧ t.resp = s.resp) ∨
      (t.engine = .ready ∧ t.resp.outcome = .failed ∧ t.pc = s.pc ∧ t.output = s.output))

/-- The frame of MULT: only the two popped cells are stored to, the second of which takes the product. -/
def Obligations.MultFrame : Prop :=
  ∀ (d : Datum) (s t : State), exec (.mult d) s = .next t →
    t.size = s.size ∧ t.output = s.output ∧ t.commands = s.commands ∧
    (∀ a, popTarget? s ≠ some a → popTarget? { s with sp := s.sp + 1 } ≠ some a → t.cellAt a = s.cellAt a) ∧
    ((t.sp = s.sp + 1 ∧ t.engine = s.engine ∧ t.resp = s.resp) ∨
      (t.engine = .ready ∧ t.resp.outcome = .failed ∧ t.pc = s.pc ∧ s.sp ≤ t.sp ∧ t.sp ≤ s.sp + 2))

/-- The frame of CALL and STOP: no cell is stored to; `sp`, output and commands are unchanged; ENGINE and RESP change only
with CALL's error and with STOP, and then `pc` does not. -/
def Obligations.CallAndStopFrame : Prop :=
  ∀ (d : Datum) (s t : State), (exec (.call d) s = .next t ∨ exec (.stop d) s = .next t) →
    t.size = s.size ∧ t.sp = s.sp ∧ t.output = s.output ∧ t.commands = s.commands ∧
    (∀ a, t.cellAt a = s.cellAt a) ∧
    ((t.engine = s.engine ∧ t.resp = s.resp) ∨ (t.engine = .ready ∧ t.pc = s.pc))

/-! ### The run loop -/

/-- A step runs the instruction that the word at `pc` decodes to; fetch and decode add nothing, `pc` is the handler's. -/
def Obligations.StepRunsDecodedInstruction : Prop :=
  (∀ (s : State) (a : Nat) (i : Instr), s.engine = .running → sintW s.pc = a → a < s.size →
      decode (s.cellAt a) = .ok i → step s = exec i s) ∧
    ∀ (s : State) (a : Nat) (i : Instr), s.engine = .running → sintW s.pc = a → a < s.size →
      decodeWord (s.cellAt a).toWord = .ok i → step s = exec i s

/-- `pc >= N` ends the run normally, before any fetch, also at the start of an EXECUTE; `pc` keeps its value (R142). That the
EXECUTE and the loop test that ends its run are two steps, and that the EXECUTE stands in `State.commands`, is the model's
own (entries 5 and 6). -/
def Obligations.LoopTestEndsRun : Prop :=
  (∀ s : State, s.engine = .running → (s.size : Int) ≤ sintW s.pc →
      step s = .next { s with engine := .ready, resp := ⟨.ended, .none, 0⟩ }) ∧
    ∀ (s : State) (rest : List Command), s.engine = .ready → s.commands = .execute :: rest →
      (s.size : Int) ≤ sintW s.pc →
      Sys2Proof.core.run 2 s = .next { s with commands := rest, engine := .ready, resp := ⟨.ended, .none, 0⟩ }

/-- R144: a fetch below 0 raises InvalidAddressPointer with nothing else changed, and only a CALL or RET with a negative
integer target makes `pc` negative. -/
def Obligations.NegativePcFailsAtFetch : Prop :=
  (∀ s : State, s.engine = .running → sintW s.pc < 0 →
      step s = .next { s with engine := .ready, resp := ⟨.failed, .invalidAddressPointer, 0⟩ }) ∧
    ∀ s t : State, s.Inv → step s = .next t → 0 ≤ sintW s.pc → sintW t.pc < 0 →
      s.engine = .running ∧
        ((∃ d, decode (s.cellAt (sintW s.pc).toNat) = .ok (.call d) ∧ d = Datum.int t.pc) ∨
          ((∃ d, decode (s.cellAt (sintW s.pc).toNat) = .ok (.ret d)) ∧
            s.cellAt s.sp = .value (Datum.int t.pc)))

/-- A RUNNING step either goes on, with RESP untouched, or ends the run in one of the three ways, each with its cause. -/
def Obligations.RunEndsInOneOfThreeWays : Prop :=
  ∀ s t : State, s.engine = .running → step s = .next t →
    (t.engine = .running ∧ t.resp = s.resp) ∨
    (t.engine = .ready ∧ t.resp = ⟨.stopped, .none, 0⟩ ∧
      ∃ (a : Nat) (d : Datum), sintW s.pc = a ∧ decode (s.cellAt a) = .ok (.stop d)) ∨
    (t.engine = .ready ∧ t.resp = ⟨.ended, .none, 0⟩ ∧ (s.size : Int) ≤ sintW s.pc) ∨
    (t.engine = .ready ∧ t.resp.outcome = .failed ∧ t.resp.errKind ≠ .none)

/-- R149's first case: a CALL to its own address runs for ever, with the state never changing. -/
def Obligations.CallToItselfNeverEnds : Prop :=
  ∀ (k a : Nat) (s : State), s.engine = .running → sintW s.pc = a → a < s.size →
    s.cellAt a = .instr 0x03#8 (Datum.int s.pc) → Sys2Proof.core.run k s = .next s

/-- A run reads neither the host's pending commands nor the events already sent: changing them changes nothing else. -/
def Obligations.RunReadsNeitherCommandsNorOutput : Prop :=
  ∀ (s t : State) (cs : List Command) (earlier : List Cell), s.engine = .running → step s = .next t →
    t.commands = s.commands ∧
      step { s with commands := cs, output := earlier ++ s.output } =
        .next { t with commands := cs, output := earlier ++ t.output }

/-! ### Errors -/

/-- R212: raising an error, in an operation of any result type (a pop gives a cell, a push nothing), skips the statements that
follow, keeps the effects made, and writes ENGINE and RESP only. -/
def Obligations.RaiseWritesOnlyEngineAndResp : Prop :=
  (∀ (α β : Type) (k : ErrKind) (info : CellWord) (s : State) (f : α → State → Done β),
      (Done.raised k info s : Done α).andThen f = .raised k info s) ∧
    (∀ (k : ErrKind) (info : CellWord) (s : State),
      (Done.raised k info s).close = .next { s with engine := .ready, resp := ⟨.failed, k, info⟩ }) ∧
    (∀ (α : Type) (k : ErrKind) (info : CellWord) (s u : State) (op : State → Done α)
      (f : α → State → Done Unit), op s = .raised k info u →
      ((op s).andThen f).close = .next { u with engine := .ready, resp := ⟨.failed, k, info⟩ }) ∧
    ∀ (k : ErrKind) (info : CellWord) (s u : State), s.engine = .running → pastEnd s = false →
      fetch s = .raised k info u →
      step s = .next { u with engine := .ready, resp := ⟨.failed, k, info⟩ }

/-- R214: no error changes `pc`, neither in a run nor in a command. -/
def Obligations.ErrorsKeepPc : Prop :=
  (∀ s t : State, s.engine = .running → step s = .next t → t.engine = .ready → t.resp.outcome = .failed →
      t.pc = s.pc) ∧
    ∀ (c : Command) (s t : State), issue c s = .next t → t.resp.outcome = .failed → t.pc = s.pc

/-- R201: the codes, and for each kind the operations that raise it and what ERR_INFO holds. -/
def Obligations.ErrorKindsAndTheirSources : Prop :=
  ([ErrKind.none, .invalidAddressType, .invalidAddressPointer, .invalidInstructionType, .stackOverflow,
      .emptyStack, .invalidMultArgType, .unknownInstruction, .valueOverflow].map errKindCode =
    [0, 1, 2, 3, 4, 5, 6, 7, 8]) ∧
  (∀ s t : State, s.engine = .running → step s = .next t → t.engine = .ready → t.resp.outcome = .failed →
    let fetched := s.cellAt (sintW s.pc).toNat
    match t.resp.errKind with
    | .none => False
    | .invalidAddressType =>
      t.resp.errInfo = 0 ∧ ∃ d, decode fetched = .ok (.call d) ∨ decode fetched = .ok (.ret d)
    | .invalidAddressPointer => t.resp.errInfo = 0 ∧ sintW s.pc < 0
    | .invalidInstructionType => False
    | .stackOverflow => t.resp.errInfo = 0 ∧ ∃ d, decode fetched = .ok (.push d)
    | .emptyStack =>
      t.resp.errInfo = 0 ∧
        ∃ d, decode fetched = .ok (.print d) ∨ decode fetched = .ok (.mult d) ∨ decode fetched = .ok (.ret d)
    | .invalidMultArgType => t.resp.errInfo = 0 ∧ ∃ d, decode fetched = .ok (.mult d)
    | .unknownInstruction => t.resp.errInfo = fetched.toWord ∧ ∃ r, decode fetched = .error r
    | .valueOverflow => t.resp.errInfo = 0 ∧ ∃ d, decode fetched = .ok (.mult d)) ∧
  ∀ (c : Command) (s t : State), issue c s = .next t → c ≠ .execute → t.resp.outcome = .failed →
    t.resp.errInfo = 0 ∧
    match t.resp.errKind with
    | .invalidAddressType => ∃ addr, c = .setAddress addr
    | .invalidAddressPointer => (∃ addr, c = .setAddress addr) ∨ ∃ op d, c = .insert op d
    | .invalidInstructionType => ∃ op d, c = .insert op d
    | _ => False

/-- R205: StackOverflow ends a run exactly when a PUSH finds `sp = 0` or its target cell occupied, and changes no state. -/
def Obligations.StackOverflowOnlyFromPush : Prop :=
  ∀ s t : State, s.Inv → s.engine = .running → step s = .next t →
    ((t.engine = .ready ∧ t.resp.errKind = .stackOverflow) ↔
      (0 ≤ sintW s.pc ∧ sintW s.pc < s.size ∧
        (∃ d, decode (s.cellAt (sintW s.pc).toNat) = .ok (.push d)) ∧
        (s.sp = 0 ∨ s.cellAt (s.sp - 1) ≠ .empty))) ∧
    (t.engine = .ready → t.resp.errKind = .stackOverflow →
      t = { s with engine := .ready, resp := ⟨.failed, .stackOverflow, 0⟩ })

/-- R206: EmptyStack comes from a failing pop of PRINT, MULT or RET; that pop changes nothing, and a first pop of MULT that
succeeded stays done. -/
def Obligations.EmptyStackOnlyFromPop : Prop :=
  ∀ s t : State, s.Inv → s.engine = .running → step s = .next t → t.engine = .ready →
    t.resp.errKind = .emptyStack →
    let fetched := s.cellAt (sintW s.pc).toNat
    ((∃ d, decode fetched = .ok (.print d) ∨ decode fetched = .ok (.mult d) ∨ decode fetched = .ok (.ret d)) ∧
      (s.sp = s.size ∨ s.cellAt s.sp = .empty) ∧
      t = { s with engine := .ready, resp := ⟨.failed, .emptyStack, 0⟩ }) ∨
    ((∃ d, decode fetched = .ok (.mult d)) ∧ s.sp < s.size ∧ s.cellAt s.sp ≠ .empty ∧
      (s.sp + 1 = s.size ∨ s.cellAt (s.sp + 1) = .empty) ∧
      t = { s with
        mem := s.mem.write s.sp .empty
        sp := s.sp + 1
        engine := .ready
        resp := ⟨.failed, .emptyStack, 0⟩ })

/-! ### The stack -/

/-- R124: pop fails on an empty stack and on an EMPTY cell with nothing changed, and otherwise returns and clears the cell. -/
def Obligations.PopFollowsItsRule : Prop :=
  (∀ s : State, s.sp = s.size → pop s = .raised .emptyStack 0 s) ∧
    (∀ s : State, s.sp < s.size → s.cellAt s.sp = .empty → pop s = .raised .emptyStack 0 s) ∧
    ∀ s : State, s.sp < s.size → s.cellAt s.sp ≠ .empty →
      pop s = .ok (s.cellAt s.sp) { s with mem := s.mem.write s.sp .empty, sp := s.sp + 1 }

/-- R127: the integer items are exactly the VALUE cells of kind INT, and their value is the signed DATA. -/
def Obligations.IntegerItemsAreIntValues : Prop :=
  (∀ (c : Cell) (v : Word), intItem? c = some v ↔ c = .value (Datum.int v)) ∧
    ∀ v : Word, sintW v = if v.msb then (v.toNat : Int) - (2 ^ 64 : Int) else (v.toNat : Int)

/-- R129, the LIFO law: two pushes and two pops give the items back in reverse, every cell and `sp` as before. -/
def Obligations.PushesPopInReverse : Prop :=
  ∀ (s : State) (v1 v2 : Datum), 2 ≤ s.sp → s.sp ≤ s.size → v1.kind ≠ .absent → v2.kind ≠ .absent →
    s.cellAt (s.sp - 1) = .empty → s.cellAt (s.sp - 2) = .empty →
    ∃ s1 s2 s3 s4 : State,
      push v1 s = .ok () s1 ∧ push v2 s1 = .ok () s2 ∧ pop s2 = .ok (.value v2) s3 ∧
      pop s3 = .ok (.value v1) s4 ∧
      s4.sp = s.sp ∧ (∀ a, s4.cellAt a = s.cellAt a) ∧
      s4.cellAt (s.sp - 1) = .empty ∧ s4.cellAt (s.sp - 2) = .empty ∧
      s2.pc = s.pc + 2 ∧ s3.pc = s2.pc ∧ s4.pc = s2.pc

/-- R240: an operand-less PUSH leaves a hole at `sp`; every pop fails there, a later push covers it, and popping that item
brings the hole back. -/
def Obligations.AbsentPushLeavesAHole : Prop :=
  ∀ (d : Datum) (s : State), d.kind = .absent → 0 < s.sp → s.sp ≤ s.size → s.cellAt (s.sp - 1) = .empty →
    ∃ h : State, exec (.push d) s = .next h ∧ h.sp = s.sp - 1 ∧ h.pc = s.pc + 1 ∧ h.cellAt h.sp = .empty ∧
      (∀ a, h.cellAt a = s.cellAt a) ∧ pop h = .raised .emptyStack 0 h ∧
      ∀ v : Datum, v.kind ≠ .absent → 1 < s.sp → s.cellAt (s.sp - 2) = .empty →
        ∃ u r : State, push v h = .ok () u ∧ pop u = .ok (.value v) r ∧ r.sp = h.sp ∧
          pop r = .raised .emptyStack 0 r

/-- A RUNNING step never changes a non-EMPTY cell below `sp`: a push cannot overwrite the program. -/
def Obligations.CellsBelowSpSurviveARun : Prop :=
  ∀ s t : State, s.engine = .running → step s = .next t →
    ∀ a, a < s.sp → s.cellAt a ≠ .empty → t.cellAt a = s.cellAt a

/-- What each operation may do to `sp`: only push, pop and RESET write it, and it stays in 0..N. -/
def Obligations.OnlyPushPopAndResetWriteSp : Prop :=
  (∀ (c : Command) (s t : State), issue c s = .next t →
      (∃ size, c = .reset size ∧ t.sp = t.size) ∨ ((∀ size, c ≠ .reset size) ∧ t.sp = s.sp)) ∧
    (∀ (s t : State) (i : Instr), exec i s = .next t →
      match i with
      | .push _ => t.sp = s.sp ∨ t.sp + 1 = s.sp
      | .print _ => t.sp = s.sp ∨ t.sp = s.sp + 1
      | .ret _ => t.sp = s.sp ∨ t.sp = s.sp + 1
      | .mult _ => t.sp = s.sp ∨ t.sp = s.sp + 1 ∨ t.sp = s.sp + 2
      | .call _ => t.sp = s.sp
      | .stop _ => t.sp = s.sp) ∧
    ∀ s t : State, s.sp ≤ s.size → step s = .next t → t.sp ≤ t.size

/-- R109: one event for each successful PRINT, the popped item; none for a failed PRINT; none from anything else. -/
def Obligations.OutputEventsComeFromPrint : Prop :=
  (∀ (d : Datum) (s : State), s.sp < s.size → s.cellAt s.sp ≠ .empty →
      ∃ t, exec (.print d) s = .next t ∧ t.output = s.output ++ [s.cellAt s.sp]) ∧
    (∀ (d : Datum) (s : State), (s.sp = s.size ∨ s.sp < s.size ∧ s.cellAt s.sp = .empty) →
      ∃ t, exec (.print d) s = .next t ∧ t.resp.outcome = .failed ∧ t.output = s.output) ∧
    ∀ s t : State, step s = .next t → t.output ≠ s.output →
      s.engine = .running ∧ (∃ d, decode (s.cellAt (sintW s.pc).toNat) = .ok (.print d)) ∧
        t.output = s.output ++ [s.cellAt s.sp]

/-! ### Reset and the host -/

/-- R35: the reset values, for every size and for `State.reset`. -/
def Obligations.ResetValues : Prop :=
  (∀ n : Nat, (∀ a, (State.resetTo n).cellAt a = .empty) ∧ (State.resetTo n).pc = 0 ∧
      (State.resetTo n).sp = (State.resetTo n).size ∧ (State.resetTo n).engine = .ready ∧
      (State.resetTo n).resp = ⟨.ok, .none, 0⟩) ∧
    ∃ n, 1 ≤ n ∧ n ≤ 2 ^ 63 - 1 ∧ State.reset = State.resetTo n

/-- RESET constructs a machine of the given size and is refused for a size that breaks the precondition. The events sent and
the host's further commands stay: that part is the model's own (entries 6 and 7). -/
def Obligations.ResetConstructsOrIsRefused : Prop :=
  (∀ (n : Nat) (s : State), s.engine = .ready → 1 ≤ n → n ≤ 2 ^ 63 - 1 →
      issue (.reset (.int n)) s =
        .next {
          size := n, mem := [], pc := 0, sp := n, engine := .ready, resp := ⟨.ok, .none, 0⟩
          commands := s.commands, output := s.output }) ∧
    (∀ (v : Int) (s : State), s.engine = .ready → (v < 1 ∨ 2 ^ 63 - 1 < v) →
      issue (.reset (.int v)) s = .refused .badResetSize) ∧
    ∀ s : State, s.engine = .ready → issue (.reset .other) s = .refused .badResetSize

/-- R103, SET_ADDRESS: the integer check, then the range check, then `pc` and RESP are written and nothing else. -/
def Obligations.SetAddressFollowsItsRule : Prop :=
  (∀ (d : Datum) (s : State), s.engine = .ready → d.kind ≠ .int →
      issue (.setAddress d) s = .next { s with resp := ⟨.failed, .invalidAddressType, 0⟩ }) ∧
    (∀ (v : Word) (s : State), s.engine = .ready → (sintW v < 0 ∨ (s.size : Int) - 1 < sintW v) →
      issue (.setAddress (Datum.int v)) s = .next { s with resp := ⟨.failed, .invalidAddressPointer, 0⟩ }) ∧
    ∀ (v : Word) (s : State), s.engine = .ready → 0 ≤ sintW v → sintW v ≤ (s.size : Int) - 1 →
      issue (.setAddress (Datum.int v)) s = .next { s with pc := v, resp := ⟨.ok, .none, 0⟩ }

/-- R104, INSERT: the token check, then the range check of `pc`, then the cell is written whatever it held; every token is
accepted, and an ABSENT operand is stored with DATA 0. -/
def Obligations.InsertFollowsItsRule : Prop :=
  (∀ (tok : Token) (d : Datum) (s : State), s.engine = .ready →
      issue (.insert ⟨false, tok⟩ d) s = .next { s with resp := ⟨.failed, .invalidInstructionType, 0⟩ }) ∧
    (∀ (tok : Token) (d : Datum) (s : State), s.engine = .ready →
      (sintW s.pc < 0 ∨ (s.size : Int) - 1 < sintW s.pc) →
      issue (.insert ⟨true, tok⟩ d) s = .next { s with resp := ⟨.failed, .invalidAddressPointer, 0⟩ }) ∧
    (∀ (tok : Token) (d : Datum) (s : State) (a : Nat), s.engine = .ready → sintW s.pc = a → a < s.size →
      issue (.insert ⟨true, tok⟩ d) s =
        .next { s with
          mem := s.mem.write a (.instr tok ⟨d.kind, if d.kind = .absent then 0 else d.data⟩)
          pc := s.pc + 1
          resp := ⟨.ok, .none, 0⟩ }) ∧
    ∀ op : OpcodeArg, Command.insert op = Command.insert op ⟨.absent, 0⟩

/-- EXECUTE starts a run from the state as it is: only ENGINE changes, and the run's first step is the loop's first iteration.
That EXECUTE and each iteration are steps of their own, and that the EXECUTE stands in `State.commands`, is the model's own
(entries 5 and 6). -/
def Obligations.ExecuteStartsRunFromHere : Prop :=
  ∀ (s : State) (rest : List Command), s.engine = .ready → s.commands = .execute :: rest →
    step s = .next { s with engine := .running, commands := rest } ∧
      Sys2Proof.core.run 2 s = iterate { s with engine := .running, commands := rest }

/-- The host's commands are issued one at a time, in order, only while READY; with none the block does nothing; while RUNNING
a command has no move. That the pending commands stand in State is the model's own (entry 6). -/
def Obligations.HostCommandsAreServedInOrder : Prop :=
  (∀ s : State, s.engine = .ready → s.commands = [] → step s = .next s) ∧
    (∀ (s : State) (c : Command) (rest : List Command), s.engine = .ready → s.commands = c :: rest →
      step s = issue c { s with commands := rest }) ∧
    (∀ (c : Command) (s : State), s.engine = .running → issue c s = .refused .commandWhileRunning) ∧
    ∀ (c : Command) (s t : State), issue c s = .next t → t.commands = s.commands

/-- While READY the host reads `pc`, `sp`, every cell of the memory, ENGINE and RESP (R111), in the numbers of R32, R33 and
R201. That a read while RUNNING or outside the memory gives nothing is the model's own (entry 15). -/
def Obligations.ObservationWhileReady : Prop :=
  [Engine.ready, .running].map engineCode = [0, 1] ∧
  [RespOutcome.ok, .stopped, .ended, .failed].map outcomeCode = [0, 1, 2, 3] ∧
  [ErrKind.none, .invalidAddressType, .invalidAddressPointer, .invalidInstructionType, .stackOverflow,
      .emptyStack, .invalidMultArgType, .unknownInstruction, .valueOverflow].map errKindCode =
    [0, 1, 2, 3, 4, 5, 6, 7, 8] ∧
  (∀ s : State, s.engine = .ready →
      observe .pc s = some (.pc s.pc) ∧ observe .sp s = some (.sp s.sp) ∧
      observe .engine s = some (.engine 0) ∧
      observe .resp s =
        some (.resp (outcomeCode s.resp.outcome) (errKindCode s.resp.errKind) s.resp.errInfo) ∧
      ∀ a, a < s.size → observe (.cell a) s = some (.cell (s.cellAt a).toWord)) ∧
    (∀ (s : State) (p : Probe), s.engine = .running → observe p s = none) ∧
    ∀ (s : State) (a : Nat), s.size ≤ a → observe (.cell a) s = none

/-- The source's property: SET_ADDRESS(a) in range and then INSERT places the instruction exactly at `a` and leaves
`pc = a + 1`, with every other cell, `sp` and the output as before. That the two commands stand in `State.commands` and are
one step each is the model's own (entries 5 and 6). -/
def Obligations.SetAddressThenInsertPlacesThere : Prop :=
  ∀ (s : State) (a : Nat) (tok : Token) (d : Datum) (rest : List Command), s.Inv → s.engine = .ready →
    a < s.size → d.canonical = true →
    s.commands = .setAddress (Datum.int (BitVec.ofNat 64 a)) :: .insert ⟨true, tok⟩ d :: rest →
    ∃ t : State, Sys2Proof.core.run 2 s = .next t ∧ sintW t.pc = a + 1 ∧ t.cellAt a = .instr tok d ∧
      (∀ b, b ≠ a → t.cellAt b = s.cellAt b) ∧ t.sp = s.sp ∧ t.output = s.output ∧ t.commands = rest ∧
      t.resp = ⟨.ok, .none, 0⟩

/-- The memory size changes only by a RESET, and no run changes it. That the RESET stands in `State.commands` is the model's
own (entry 6). -/
def Obligations.SizeChangesOnlyByReset : Prop :=
  ∀ s t : State, step s = .next t → t.size ≠ s.size →
    s.engine = .ready ∧ ∃ (n : Nat) (rest : List Command), s.commands = .reset (.int n) :: rest ∧ t.size = n

/-! ### The invariant -/

/-- Every step keeps the invariant: a legal size, memory in canonical form and inside 0..N-1 with canonical cells, `sp` in
0..N, a legal RESP, and output events that are items. -/
def Obligations.EveryStepKeepsTheInvariant : Prop :=
  ∀ s t : State, s.Inv → step s = .next t → t.Inv

/-- The state after reset, of every legal size, meets the invariant. -/
def Obligations.ResetMeetsTheInvariant : Prop :=
  State.reset.Inv ∧ ∀ n, 1 ≤ n → n ≤ 2 ^ 63 - 1 → (State.resetTo n).Inv

/-- A legal state always has a next state, unless the host's next command is a RESET with a bad size: no step faults, and no
instruction, operand or error stops the machine. That the host's commands stand in `State.commands` is the model's own
(entry 6). -/
def Obligations.LegalStatesAlwaysStep : Prop :=
  ∀ s : State, s.Inv →
    (¬ s.badResetNext → ∃ t, step s = .next t) ∧ (s.badResetNext → step s = .refused .badResetSize)
end

