-- ==== Sys2Proof/Laws/Memory.lean ====
section
/-! SUPPORT. Memory: a read after a write, at the same address and at another; every write keeps the canonical form and the
bounds; two memories in canonical form that read alike are equal. -/

namespace Sys2Proof.Machine.Memory

@[simp] theorem read_nil (a : Nat) : read [] a = .empty := rfl

theorem read_cons (b : Nat) (c : Cell) (m : Memory) (a : Nat) :
    read ((b, c) :: m) a = if a = b then c else read m a := rfl

theorem erase_cons (b : Nat) (c : Cell) (m : Memory) (a : Nat) :
    erase ((b, c) :: m) a = if b = a then erase m a else (b, c) :: erase m a := by
  by_cases h : b = a <;> simp [erase, h]

theorem read_erase (m : Memory) (a b : Nat) :
    (m.erase a).read b = if b = a then .empty else m.read b := by
  induction m with
  | nil => simp [erase]
  | cons e m ih =>
    obtain ⟨x, c⟩ := e
    rw [erase_cons]
    by_cases hx : x = a
    · by_cases hb : b = a <;> simp_all [read_cons]
    · by_cases hb : b = x
      · simp_all [read_cons]
      · simp_all [read_cons]

theorem read_place (m : Memory) (a : Nat) (c : Cell) (b : Nat)
    (hout : ∀ e ∈ m, e.1 ≠ a) :
    (m.place a c).read b = if b = a then c else m.read b := by
  induction m with
  | nil => simp [place, read_cons]
  | cons e m ih =>
    obtain ⟨x, d⟩ := e
    have hx : x ≠ a := hout (x, d) (by simp)
    have ih := ih fun e he => hout e (by simp [he])
    unfold place
    split
    · simp [read_cons]
    · rw [read_cons, read_cons, ih]
      by_cases hb : b = x
      · simp [hb, hx]
      · simp [hb]

theorem not_mem_erase (m : Memory) (a : Nat) : ∀ e ∈ m.erase a, e.1 ≠ a := by
  intro e he
  simpa [erase] using (List.mem_filter.mp he).2

/-- A read after a write: the written cell at its address, the old cell anywhere else. -/
theorem read_write (m : Memory) (a : Nat) (c : Cell) (b : Nat) :
    (m.write a c).read b = if b = a then c else m.read b := by
  unfold write
  split
  · rename_i hc; rw [read_erase, hc]
  · rw [read_place _ _ _ _ (not_mem_erase m a), read_erase]
    split <;> rfl

@[simp] theorem read_write_same (m : Memory) (a : Nat) (c : Cell) : (m.write a c).read a = c := by
  simp [read_write]

theorem read_write_other (m : Memory) (a : Nat) (c : Cell) {b : Nat} (h : b ≠ a) :
    (m.write a c).read b = m.read b := by
  simp [read_write, h]

theorem erase_of_not_mem (m : Memory) (a : Nat) (h : ∀ e ∈ m, e.1 ≠ a) : m.erase a = m := by
  simpa [erase, List.filter_eq_self] using fun x c hx => h (x, c) hx

theorem erase_place (m : Memory) (a : Nat) (c : Cell) (h : ∀ e ∈ m, e.1 ≠ a) :
    (m.place a c).erase a = m := by
  induction m with
  | nil => simp [place, erase]
  | cons e m ih =>
    obtain ⟨x, d⟩ := e
    have hx : x ≠ a := h (x, d) (by simp)
    have hm : ∀ e ∈ m, e.1 ≠ a := fun e he => h e (by simp [he])
    unfold place
    split
    · rw [erase_cons, if_pos rfl]; exact erase_of_not_mem _ _ h
    · rw [erase_cons, if_neg hx, ih hm]

/-- A second write to one address replaces the first. -/
@[simp] theorem write_write (m : Memory) (a : Nat) (c d : Cell) :
    (m.write a c).write a d = m.write a d := by
  have h : (m.write a c).erase a = m.erase a := by
    unfold write
    split
    · exact erase_of_not_mem _ _ (not_mem_erase m a)
    · exact erase_place _ _ _ (not_mem_erase m a)
  unfold write at h ⊢
  rw [h]

/-! ### The canonical form -/

theorem wfAbove_mono {lo hi : Nat} {m : Memory} (h : m.wfAbove hi = true) (hle : lo ≤ hi) :
    m.wfAbove lo = true := by
  cases m with
  | nil => rfl
  | cons e m =>
    obtain ⟨x, c⟩ := e
    simp only [wfAbove, Bool.and_eq_true, decide_eq_true_eq] at h ⊢
    exact ⟨⟨by omega, h.1.2⟩, h.2⟩

theorem wfAbove_erase {lo : Nat} {m : Memory} (a : Nat) (h : m.wfAbove lo = true) :
    (m.erase a).wfAbove lo = true := by
  induction m generalizing lo with
  | nil => rfl
  | cons e m ih =>
    obtain ⟨x, c⟩ := e
    simp only [wfAbove, Bool.and_eq_true, decide_eq_true_eq] at h
    rw [erase_cons]
    split
    · exact wfAbove_mono (ih h.2) (by omega)
    · simp [wfAbove, h.1.1, h.1.2, ih h.2]

theorem wfAbove_place {lo : Nat} {m : Memory} {a : Nat} {c : Cell} (h : m.wfAbove lo = true) (ha : lo ≤ a)
    (hc : c ≠ .empty) (hout : ∀ e ∈ m, e.1 ≠ a) : (m.place a c).wfAbove lo = true := by
  induction m generalizing lo with
  | nil => simp [place, wfAbove, ha, hc]
  | cons e m ih =>
    obtain ⟨x, d⟩ := e
    have hx : x ≠ a := hout (x, d) (by simp)
    simp only [wfAbove, Bool.and_eq_true, decide_eq_true_eq] at h
    unfold place
    split
    · simp [wfAbove, ha, hc, h.1.2, h.2]; omega
    · have := ih h.2 (by omega) fun e he => hout e (by simp [he])
      simp [wfAbove, h.1.1, h.1.2, this]

/-- Every write keeps memory in canonical form. -/
theorem wf_write {m : Memory} (a : Nat) (c : Cell) (h : m.wf = true) : (m.write a c).wf = true := by
  unfold write
  split
  · exact wfAbove_erase a h
  · rename_i hc
    exact wfAbove_place (wfAbove_erase a h) (Nat.zero_le a) hc (not_mem_erase m a)

theorem mem_place {m : Memory} {a : Nat} {c : Cell} {e : Nat × Cell} (h : e ∈ m.place a c) :
    e = (a, c) ∨ e ∈ m := by
  induction m with
  | nil => simpa [place] using h
  | cons x m ih =>
    obtain ⟨b, d⟩ := x
    unfold place at h
    split at h
    · simpa using h
    · rcases List.mem_cons.mp h with h | h
      · simp [h]
      · rcases ih h with h | h <;> simp [h]

/-- A write of a canonical cell at an address of the memory keeps every listed cell inside and canonical. -/
theorem inside_write {n : Nat} {m : Memory} {a : Nat} {c : Cell} (h : m.inside n = true) (ha : a < n)
    (hc : c.canonical = true) : (m.write a c).inside n = true := by
  simp only [inside, List.all_eq_true] at h ⊢
  intro e he
  unfold write at he
  split at he
  · exact h e (List.mem_filter.mp he).1
  · rcases mem_place he with rfl | he
    · simp [ha, hc]
    · exact h e (List.mem_filter.mp he).1

/-- A cell read from a memory inside 0..n-1 is canonical. -/
theorem canonical_read {n : Nat} {m : Memory} (h : m.inside n = true) (a : Nat) :
    (m.read a).canonical = true := by
  induction m with
  | nil => rfl
  | cons e m ih =>
    obtain ⟨x, c⟩ := e
    simp only [inside, List.all_cons, Bool.and_eq_true] at h
    rw [read_cons]
    split
    · exact h.1.2
    · exact ih h.2

/-- No cell is listed at or above the size. -/
theorem read_outside {n : Nat} {m : Memory} (h : m.inside n = true) {a : Nat} (ha : n ≤ a) :
    m.read a = .empty := by
  induction m with
  | nil => rfl
  | cons e m ih =>
    obtain ⟨x, c⟩ := e
    simp only [inside, List.all_cons, Bool.and_eq_true, decide_eq_true_eq] at h
    have hx : x < n := h.1.1
    rw [read_cons, if_neg (by omega)]
    exact ih h.2

theorem read_below {lo : Nat} {m : Memory} (h : m.wfAbove lo = true) {a : Nat} (ha : a < lo) :
    m.read a = .empty := by
  induction m generalizing lo with
  | nil => rfl
  | cons e m ih =>
    obtain ⟨x, c⟩ := e
    simp only [wfAbove, Bool.and_eq_true, decide_eq_true_eq] at h
    rw [read_cons, if_neg (by omega)]
    exact ih h.2 (by omega)

theorem ext_above {lo : Nat} {m m' : Memory} (h : m.wfAbove lo = true) (h' : m'.wfAbove lo = true)
    (hr : ∀ a, m.read a = m'.read a) : m = m' := by
  induction m generalizing lo m' with
  | nil =>
    cases m' with
    | nil => rfl
    | cons e m' =>
      obtain ⟨x, c⟩ := e
      simp only [wfAbove, Bool.and_eq_true, decide_eq_true_eq] at h'
      have := hr x
      simp only [read_nil, read_cons, if_true] at this
      exact absurd this.symm h'.1.2
  | cons e m ih =>
    obtain ⟨x, c⟩ := e
    simp only [wfAbove, Bool.and_eq_true, decide_eq_true_eq] at h
    cases m' with
    | nil =>
      have := hr x
      simp only [read_nil, read_cons, if_true] at this
      exact absurd this h.1.2
    | cons e' m' =>
      obtain ⟨y, d⟩ := e'
      simp only [wfAbove, Bool.and_eq_true, decide_eq_true_eq] at h'
      have hxy : x = y := by
        rcases Nat.lt_trichotomy x y with hlt | heq | hgt
        · have := hr x
          rw [read_cons, read_cons, if_pos rfl, if_neg (by omega), read_below h'.2 (by omega)] at this
          exact absurd this h.1.2
        · exact heq
        · have := hr y
          rw [read_cons, read_cons, if_pos rfl, if_neg (by omega), read_below h.2 (by omega)] at this
          exact absurd this.symm h'.1.2
      subst hxy
      have hcd : c = d := by simpa [read_cons] using hr x
      have hm : m = m' := by
        refine ih h.2 h'.2 fun a => ?_
        by_cases ha : a = x
        · rw [ha, read_below h.2 (by omega), read_below h'.2 (by omega)]
        · simpa [read_cons, ha] using hr a
      rw [hcd, hm]

end Sys2Proof.Machine.Memory
end

