-- ==== Sys2Proof/Laws/State.lean ====
section
/-! SUPPORT. One lemma per field of State for each update of Machine/Ops.lean, all by rfl, so that no proof unfolds a record
update. -/

namespace Sys2Proof.Machine.State

variable (s : State)

/-! ### `setPc` -/

@[simp] theorem size_setPc (v : Word) : (s.setPc v).size = s.size := rfl
@[simp] theorem mem_setPc (v : Word) : (s.setPc v).mem = s.mem := rfl
@[simp] theorem pc_setPc (v : Word) : (s.setPc v).pc = v := rfl
@[simp] theorem sp_setPc (v : Word) : (s.setPc v).sp = s.sp := rfl
@[simp] theorem engine_setPc (v : Word) : (s.setPc v).engine = s.engine := rfl
@[simp] theorem resp_setPc (v : Word) : (s.setPc v).resp = s.resp := rfl
@[simp] theorem commands_setPc (v : Word) : (s.setPc v).commands = s.commands := rfl
@[simp] theorem output_setPc (v : Word) : (s.setPc v).output = s.output := rfl
@[simp] theorem cellAt_setPc (v : Word) (b : Nat) : (s.setPc v).cellAt b = s.cellAt b := rfl

/-! ### `setSp` -/

@[simp] theorem size_setSp (n : Nat) : (s.setSp n).size = s.size := rfl
@[simp] theorem mem_setSp (n : Nat) : (s.setSp n).mem = s.mem := rfl
@[simp] theorem pc_setSp (n : Nat) : (s.setSp n).pc = s.pc := rfl
@[simp] theorem sp_setSp (n : Nat) : (s.setSp n).sp = n := rfl
@[simp] theorem engine_setSp (n : Nat) : (s.setSp n).engine = s.engine := rfl
@[simp] theorem resp_setSp (n : Nat) : (s.setSp n).resp = s.resp := rfl
@[simp] theorem commands_setSp (n : Nat) : (s.setSp n).commands = s.commands := rfl
@[simp] theorem output_setSp (n : Nat) : (s.setSp n).output = s.output := rfl
@[simp] theorem cellAt_setSp (n : Nat) (b : Nat) : (s.setSp n).cellAt b = s.cellAt b := rfl

/-! ### `setCell` -/

@[simp] theorem size_setCell (a : Nat) (c : Cell) : (s.setCell a c).size = s.size := rfl
@[simp] theorem mem_setCell (a : Nat) (c : Cell) : (s.setCell a c).mem = s.mem.write a c := rfl
@[simp] theorem pc_setCell (a : Nat) (c : Cell) : (s.setCell a c).pc = s.pc := rfl
@[simp] theorem sp_setCell (a : Nat) (c : Cell) : (s.setCell a c).sp = s.sp := rfl
@[simp] theorem engine_setCell (a : Nat) (c : Cell) : (s.setCell a c).engine = s.engine := rfl
@[simp] theorem resp_setCell (a : Nat) (c : Cell) : (s.setCell a c).resp = s.resp := rfl
@[simp] theorem commands_setCell (a : Nat) (c : Cell) : (s.setCell a c).commands = s.commands := rfl
@[simp] theorem output_setCell (a : Nat) (c : Cell) : (s.setCell a c).output = s.output := rfl
@[simp] theorem cellAt_setCell (a : Nat) (c : Cell) (b : Nat) : (s.setCell a c).cellAt b = (s.mem.write a c).read b := rfl

/-! ### `emit` -/

@[simp] theorem size_emit (item : Cell) : (s.emit item).size = s.size := rfl
@[simp] theorem mem_emit (item : Cell) : (s.emit item).mem = s.mem := rfl
@[simp] theorem pc_emit (item : Cell) : (s.emit item).pc = s.pc := rfl
@[simp] theorem sp_emit (item : Cell) : (s.emit item).sp = s.sp := rfl
@[simp] theorem engine_emit (item : Cell) : (s.emit item).engine = s.engine := rfl
@[simp] theorem resp_emit (item : Cell) : (s.emit item).resp = s.resp := rfl
@[simp] theorem commands_emit (item : Cell) : (s.emit item).commands = s.commands := rfl
@[simp] theorem output_emit (item : Cell) : (s.emit item).output = s.output ++ [item] := rfl
@[simp] theorem cellAt_emit (item : Cell) (b : Nat) : (s.emit item).cellAt b = s.cellAt b := rfl

/-! ### `respond` -/

@[simp] theorem size_respond (r : Resp) : (s.respond r).size = s.size := rfl
@[simp] theorem mem_respond (r : Resp) : (s.respond r).mem = s.mem := rfl
@[simp] theorem pc_respond (r : Resp) : (s.respond r).pc = s.pc := rfl
@[simp] theorem sp_respond (r : Resp) : (s.respond r).sp = s.sp := rfl
@[simp] theorem engine_respond (r : Resp) : (s.respond r).engine = s.engine := rfl
@[simp] theorem resp_respond (r : Resp) : (s.respond r).resp = r := rfl
@[simp] theorem commands_respond (r : Resp) : (s.respond r).commands = s.commands := rfl
@[simp] theorem output_respond (r : Resp) : (s.respond r).output = s.output := rfl
@[simp] theorem cellAt_respond (r : Resp) (b : Nat) : (s.respond r).cellAt b = s.cellAt b := rfl

/-! ### `setEngine` -/

@[simp] theorem size_setEngine (e : Engine) : (s.setEngine e).size = s.size := rfl
@[simp] theorem mem_setEngine (e : Engine) : (s.setEngine e).mem = s.mem := rfl
@[simp] theorem pc_setEngine (e : Engine) : (s.setEngine e).pc = s.pc := rfl
@[simp] theorem sp_setEngine (e : Engine) : (s.setEngine e).sp = s.sp := rfl
@[simp] theorem engine_setEngine (e : Engine) : (s.setEngine e).engine = e := rfl
@[simp] theorem resp_setEngine (e : Engine) : (s.setEngine e).resp = s.resp := rfl
@[simp] theorem commands_setEngine (e : Engine) : (s.setEngine e).commands = s.commands := rfl
@[simp] theorem output_setEngine (e : Engine) : (s.setEngine e).output = s.output := rfl
@[simp] theorem cellAt_setEngine (e : Engine) (b : Nat) : (s.setEngine e).cellAt b = s.cellAt b := rfl

/-! ### `setCommands` -/

@[simp] theorem size_setCommands (cs : List Command) : (s.setCommands cs).size = s.size := rfl
@[simp] theorem mem_setCommands (cs : List Command) : (s.setCommands cs).mem = s.mem := rfl
@[simp] theorem pc_setCommands (cs : List Command) : (s.setCommands cs).pc = s.pc := rfl
@[simp] theorem sp_setCommands (cs : List Command) : (s.setCommands cs).sp = s.sp := rfl
@[simp] theorem engine_setCommands (cs : List Command) : (s.setCommands cs).engine = s.engine := rfl
@[simp] theorem resp_setCommands (cs : List Command) : (s.setCommands cs).resp = s.resp := rfl
@[simp] theorem commands_setCommands (cs : List Command) : (s.setCommands cs).commands = cs := rfl
@[simp] theorem output_setCommands (cs : List Command) : (s.setCommands cs).output = s.output := rfl
@[simp] theorem cellAt_setCommands (cs : List Command) (b : Nat) : (s.setCommands cs).cellAt b = s.cellAt b := rfl

/-! ### `finish` -/

@[simp] theorem size_finish (r : Resp) : (s.finish r).size = s.size := rfl
@[simp] theorem mem_finish (r : Resp) : (s.finish r).mem = s.mem := rfl
@[simp] theorem pc_finish (r : Resp) : (s.finish r).pc = s.pc := rfl
@[simp] theorem sp_finish (r : Resp) : (s.finish r).sp = s.sp := rfl
@[simp] theorem engine_finish (r : Resp) : (s.finish r).engine = .ready := rfl
@[simp] theorem resp_finish (r : Resp) : (s.finish r).resp = r := rfl
@[simp] theorem commands_finish (r : Resp) : (s.finish r).commands = s.commands := rfl
@[simp] theorem output_finish (r : Resp) : (s.finish r).output = s.output := rfl
@[simp] theorem cellAt_finish (r : Resp) (b : Nat) : (s.finish r).cellAt b = s.cellAt b := rfl

/-! ### `fail` -/

@[simp] theorem size_fail (k : ErrKind) (info : CellWord) : (s.fail k info).size = s.size := rfl
@[simp] theorem mem_fail (k : ErrKind) (info : CellWord) : (s.fail k info).mem = s.mem := rfl
@[simp] theorem pc_fail (k : ErrKind) (info : CellWord) : (s.fail k info).pc = s.pc := rfl
@[simp] theorem sp_fail (k : ErrKind) (info : CellWord) : (s.fail k info).sp = s.sp := rfl
@[simp] theorem engine_fail (k : ErrKind) (info : CellWord) : (s.fail k info).engine = .ready := rfl
@[simp] theorem resp_fail (k : ErrKind) (info : CellWord) : (s.fail k info).resp = ⟨.failed, k, info⟩ := rfl
@[simp] theorem commands_fail (k : ErrKind) (info : CellWord) : (s.fail k info).commands = s.commands := rfl
@[simp] theorem output_fail (k : ErrKind) (info : CellWord) : (s.fail k info).output = s.output := rfl
@[simp] theorem cellAt_fail (k : ErrKind) (info : CellWord) (b : Nat) : (s.fail k info).cellAt b = s.cellAt b := rfl

end Sys2Proof.Machine.State
end

