-- ==== Sys2Proof/Laws/Ops.lean ====
section
/-! SUPPORT. One equation for each shared operation that says everything it can do: cell access, push, pop, the sequencing
and the end of a handler. Proofs about instructions cite these and do not unfold the operations. -/

namespace Sys2Proof.Machine

@[simp] theorem Done.ok_andThen {α β : Type} (a : α) (s : State) (f : α → State → Done β) :
    (Done.ok a s).andThen f = f a s := rfl

@[simp] theorem Done.raised_andThen {α β : Type} (k : ErrKind) (i : CellWord) (s : State)
    (f : α → State → Done β) : (Done.raised k i s).andThen f = .raised k i s := rfl

@[simp] theorem Done.noCell_andThen {α β : Type} (a : Nat) (f : α → State → Done β) :
    (Done.noCell a).andThen f = .noCell a := rfl

@[simp] theorem Done.close_ok (s : State) : (Done.ok () s).close = .next s := rfl

@[simp] theorem Done.close_raised (k : ErrKind) (i : CellWord) (s : State) :
    (Done.raised k i s).close = .next (s.fail k i) := rfl

@[simp] theorem Done.close_noCell (a : Nat) : (Done.noCell a).close = .fault (.noSuchCell a) := rfl

theorem readCell_eq (a : Nat) (s : State) :
    readCell a s = if a < s.size then .ok (s.cellAt a) s else .noCell a := rfl

theorem writeCell_eq (a : Nat) (c : Cell) (s : State) :
    writeCell a c s = if a < s.size then .ok () (s.setCell a c) else .noCell a := rfl

/-- The state a successful push leaves (R121). -/
def pushed (d : Datum) (s : State) : State :=
  ((s.setSp (s.sp - 1)).setCell (s.sp - 1) (stackedCell d)).setPc (s.pc + 1)

/-- The state a successful pop leaves (R124). -/
def popped (s : State) : State := (s.setCell s.sp .empty).setSp (s.sp + 1)

/-! ### What push and pop leave, field by field -/

@[simp] theorem size_pushed (d : Datum) (s : State) : (pushed d s).size = s.size := rfl

@[simp] theorem size_popped (s : State) : (popped s).size = s.size := rfl

@[simp] theorem sp_pushed (d : Datum) (s : State) : (pushed d s).sp = s.sp - 1 := rfl

@[simp] theorem sp_popped (s : State) : (popped s).sp = s.sp + 1 := rfl

@[simp] theorem pc_pushed (d : Datum) (s : State) : (pushed d s).pc = s.pc + 1 := rfl

@[simp] theorem pc_popped (s : State) : (popped s).pc = s.pc := rfl

@[simp] theorem engine_pushed (d : Datum) (s : State) : (pushed d s).engine = s.engine := rfl

@[simp] theorem engine_popped (s : State) : (popped s).engine = s.engine := rfl

@[simp] theorem resp_pushed (d : Datum) (s : State) : (pushed d s).resp = s.resp := rfl

@[simp] theorem resp_popped (s : State) : (popped s).resp = s.resp := rfl

@[simp] theorem commands_pushed (d : Datum) (s : State) : (pushed d s).commands = s.commands := rfl

@[simp] theorem commands_popped (s : State) : (popped s).commands = s.commands := rfl

@[simp] theorem output_pushed (d : Datum) (s : State) : (pushed d s).output = s.output := rfl

@[simp] theorem output_popped (s : State) : (popped s).output = s.output := rfl

@[simp] theorem mem_pushed (d : Datum) (s : State) : (pushed d s).mem = s.mem.write (s.sp - 1) (stackedCell d) := rfl

@[simp] theorem mem_popped (s : State) : (popped s).mem = s.mem.write s.sp .empty := rfl

theorem cellAt_pushed (d : Datum) (s : State) (a : Nat) :
    (pushed d s).cellAt a = if a = s.sp - 1 then stackedCell d else s.cellAt a :=
  Memory.read_write s.mem (s.sp - 1) (stackedCell d) a

theorem cellAt_popped (s : State) (a : Nat) :
    (popped s).cellAt a = if a = s.sp then .empty else s.cellAt a :=
  Memory.read_write s.mem s.sp .empty a

/-- Everything a push can do (R121, R122). -/
theorem push_eq (d : Datum) (s : State) :
    push d s =
      if s.sp = 0 then .raised .stackOverflow 0 s
      else if s.size < s.sp then .noCell (s.sp - 1)
      else if s.cellAt (s.sp - 1) ≠ .empty then .raised .stackOverflow 0 s
      else .ok () (pushed d s) := by
  unfold push pushTarget?
  by_cases h0 : s.sp = 0
  · simp [h0]
  · by_cases h1 : s.size < s.sp
    · have : ¬ s.sp - 1 < s.size := by omega
      simp [h0, h1, readCell_eq, this]
    · have : s.sp - 1 < s.size := by omega
      simp only [h0, h1, if_false, readCell_eq, this, if_true, Done.ok_andThen]
      split
      · rfl
      · simp [writeCell_eq, this, pushed]

/-- Everything a pop can do (R124). -/
theorem pop_eq (s : State) :
    pop s =
      if s.sp = s.size then .raised .emptyStack 0 s
      else if s.size < s.sp then .noCell s.sp
      else if s.cellAt s.sp = .empty then .raised .emptyStack 0 s
      else .ok (s.cellAt s.sp) (popped s) := by
  unfold pop popTarget?
  by_cases h0 : s.sp = s.size
  · simp [h0]
  · by_cases h1 : s.size < s.sp
    · have : ¬ s.sp < s.size := by omega
      simp [h0, h1, readCell_eq, this]
    · have : s.sp < s.size := by omega
      simp only [h0, h1, if_false, readCell_eq, this, if_true, Done.ok_andThen]
      split
      · rfl
      · simp [writeCell_eq, this, popped]

/-! ### Inversion: what push and pop can do -/

/-- A push overflows, succeeds, or (only when `sp` is above the size) would touch no cell. -/
theorem push_cases (d : Datum) (s : State) :
    ((s.sp = 0 ∨ s.sp ≤ s.size ∧ s.cellAt (s.sp - 1) ≠ .empty) ∧ push d s = .raised .stackOverflow 0 s) ∨
    ((0 < s.sp ∧ s.sp ≤ s.size ∧ s.cellAt (s.sp - 1) = .empty) ∧ push d s = .ok () (pushed d s)) ∨
    (s.size < s.sp ∧ push d s = .noCell (s.sp - 1)) := by
  rw [push_eq]
  by_cases h0 : s.sp = 0
  · exact .inl ⟨.inl h0, if_pos h0⟩
  · rw [if_neg h0]
    by_cases h1 : s.size < s.sp
    · exact .inr (.inr ⟨h1, if_pos h1⟩)
    · rw [if_neg h1]
      by_cases he : s.cellAt (s.sp - 1) = .empty
      · exact .inr (.inl ⟨⟨by omega, by omega, he⟩, if_neg (by simpa using he)⟩)
      · exact .inl ⟨.inr ⟨by omega, he⟩, if_pos he⟩

/-- A pop finds nothing, succeeds, or (only when `sp` is above the size) would touch no cell. -/
theorem pop_cases (s : State) :
    ((s.sp = s.size ∨ s.sp < s.size ∧ s.cellAt s.sp = .empty) ∧ pop s = .raised .emptyStack 0 s) ∨
    ((s.sp < s.size ∧ s.cellAt s.sp ≠ .empty) ∧ pop s = .ok (s.cellAt s.sp) (popped s)) ∨
    (s.size < s.sp ∧ pop s = .noCell s.sp) := by
  rw [pop_eq]
  by_cases h0 : s.sp = s.size
  · exact .inl ⟨.inl h0, if_pos h0⟩
  · rw [if_neg h0]
    by_cases h1 : s.size < s.sp
    · exact .inr (.inr ⟨h1, if_pos h1⟩)
    · rw [if_neg h1]
      by_cases he : s.cellAt s.sp = .empty
      · exact .inl ⟨.inr ⟨by omega, he⟩, if_pos he⟩
      · exact .inr (.inl ⟨⟨by omega, he⟩, if_neg he⟩)

/-! ### Operands -/

@[simp] theorem intDatum?_int (v : Word) : intDatum? ⟨.int, v⟩ = some v := rfl

@[simp] theorem intItem?_int (v : Word) : intItem? (.value ⟨.int, v⟩) = some v := rfl

theorem intItem?_eq_some {c : Cell} {v : Word} : intItem? c = some v ↔ c = .value ⟨.int, v⟩ := by
  constructor
  · intro h
    match c with
    | .empty => cases h
    | .instr _ _ => cases h
    | .value ⟨.int, w⟩ => cases h; rfl
    | .value ⟨.absent, w⟩ => cases h
    | .value ⟨.other, w⟩ => cases h
  · rintro rfl; rfl

theorem stackedCell_canonical (d : Datum) : (stackedCell d).canonical = true := by
  obtain ⟨k, v⟩ := d
  cases k <;> simp [stackedCell, Cell.canonical]

theorem storedOperand_canonical (d : Datum) : (storedOperand d).canonical = true := by
  obtain ⟨k, v⟩ := d
  cases k <;> simp [storedOperand, Datum.canonical, Datum.absent]

theorem cellIndex?_eq_some {n a : Nat} {v : Word} :
    cellIndex? n v = some a ↔ 0 ≤ sintW v ∧ sintW v = a ∧ a < n := by
  unfold cellIndex?
  split
  · simp only [Option.some.injEq]; omega
  · simp only [reduceCtorEq, false_iff]; omega

theorem fitsW_iff (x : Int) : fitsW x = true ↔ -(2 ^ 63) ≤ x ∧ x ≤ 2 ^ 63 - 1 := by
  simp [fitsW]

/-- A W-bit field of an integer that fits reads back as that integer (R12). -/
theorem sintW_encW {x : Int} (h : fitsW x = true) : sintW (encW x) = x := by
  rw [fitsW_iff] at h
  simp only [sintW, encW, BitVec.toInt_ofInt]
  exact Int.bmod_eq_of_le (by omega) (by omega)

end Sys2Proof.Machine
end

