-- ==== Sys2Proof/Laws/Exec.lean ====
section
/-! SUPPORT. Inversion lemmas: if an instruction's meaning answers a next state, then one of these cases holds. Proofs about
runs cite them and do not unfold the meanings. -/

namespace Sys2Proof.Machine

variable {d : Datum} {s t : State}

/-- PUSH overflows or pushes. -/
theorem execPush_cases (h : execPush d s = .next t) :
    ((s.sp = 0 ∨ s.sp ≤ s.size ∧ s.cellAt (s.sp - 1) ≠ .empty) ∧ t = s.fail .stackOverflow 0) ∨
    ((0 < s.sp ∧ s.sp ≤ s.size ∧ s.cellAt (s.sp - 1) = .empty) ∧ t = pushed d s) := by
  unfold execPush at h
  rcases push_cases d s with ⟨hc, hp⟩ | ⟨hc, hp⟩ | ⟨-, hp⟩ <;> rw [hp] at h <;> cases h
  · exact .inl ⟨hc, rfl⟩
  · exact .inr ⟨hc, rfl⟩

/-- PRINT finds nothing to pop, or pops and emits. -/
theorem execPrint_cases (h : execPrint d s = .next t) :
    ((s.sp = s.size ∨ s.sp < s.size ∧ s.cellAt s.sp = .empty) ∧ t = s.fail .emptyStack 0) ∨
    ((s.sp < s.size ∧ s.cellAt s.sp ≠ .empty) ∧ t = ((popped s).emit (s.cellAt s.sp)).setPc (s.pc + 1)) := by
  unfold execPrint at h
  rcases pop_cases s with ⟨hc, hp⟩ | ⟨hc, hp⟩ | ⟨-, hp⟩ <;> rw [hp] at h <;> cases h
  · exact .inl ⟨hc, rfl⟩
  · exact .inr ⟨hc, rfl⟩

/-- CALL jumps to an INT operand, or fails on any other. -/
theorem execCall_cases (h : execCall d s = .next t) :
    (d.kind ≠ .int ∧ t = s.fail .invalidAddressType 0) ∨ ∃ v, d = Datum.int v ∧ t = s.setPc v := by
  obtain ⟨k, v⟩ := d
  cases k <;> cases h
  · exact .inl ⟨by simp, rfl⟩
  · exact .inr ⟨v, rfl, rfl⟩
  · exact .inl ⟨by simp, rfl⟩

/-- RET finds nothing to pop, pops a non-integer and fails, or pops an integer and jumps. -/
theorem execRet_cases (h : execRet d s = .next t) :
    ((s.sp = s.size ∨ s.sp < s.size ∧ s.cellAt s.sp = .empty) ∧ t = s.fail .emptyStack 0) ∨
    ((s.sp < s.size ∧ s.cellAt s.sp ≠ .empty) ∧
      ((intItem? (s.cellAt s.sp) = none ∧ t = (popped s).fail .invalidAddressType 0) ∨
        ∃ v, intItem? (s.cellAt s.sp) = some v ∧ t = (popped s).setPc v)) := by
  unfold execRet at h
  rcases pop_cases s with ⟨hc, hp⟩ | ⟨hc, hp⟩ | ⟨-, hp⟩ <;> rw [hp] at h
  · cases h
    exact .inl ⟨hc, rfl⟩
  · refine .inr ⟨hc, ?_⟩
    rw [Done.ok_andThen] at h
    split at h <;> rename_i hi <;> cases h
    · exact .inl ⟨hi, rfl⟩
    · exact .inr ⟨_, hi, rfl⟩
  · cases h

/-- STOP ends the run. -/
theorem execStop_cases (h : execStop d s = .next t) : t = s.finish ⟨.stopped, .none, 0⟩ := by
  cases h
  rfl

/-- After a pop the next cell up is as it was. -/
theorem cellAt_popped_succ (s : State) : (popped s).cellAt (s.sp + 1) = s.cellAt (s.sp + 1) := by
  rw [cellAt_popped, if_neg (by omega)]

/-- MULT fails on its first pop, on its second, on the types, on the range, or pushes the product. -/
theorem execMult_cases (h : execMult d s = .next t) :
    ((s.sp = s.size ∨ s.sp < s.size ∧ s.cellAt s.sp = .empty) ∧ t = s.fail .emptyStack 0) ∨
    ((s.sp < s.size ∧ s.cellAt s.sp ≠ .empty) ∧
      (((s.sp + 1 = s.size ∨ s.sp + 1 < s.size ∧ s.cellAt (s.sp + 1) = .empty) ∧
          t = (popped s).fail .emptyStack 0) ∨
        ((s.sp + 1 < s.size ∧ s.cellAt (s.sp + 1) ≠ .empty) ∧
          (((intItem? (s.cellAt s.sp) = none ∨ intItem? (s.cellAt (s.sp + 1)) = none) ∧
              t = (popped (popped s)).fail .invalidMultArgType 0) ∨
            ∃ x y, intItem? (s.cellAt s.sp) = some x ∧ intItem? (s.cellAt (s.sp + 1)) = some y ∧
              ((fitsW (sintW x * sintW y) = false ∧ t = (popped (popped s)).fail .valueOverflow 0) ∨
                (fitsW (sintW x * sintW y) = true ∧
                  t = pushed (Datum.int (encW (sintW x * sintW y))) (popped (popped s)))))))) := by
  unfold execMult at h
  rcases pop_cases s with ⟨h1, hp⟩ | ⟨h1, hp⟩ | ⟨-, hp⟩ <;> rw [hp] at h
  · cases h
    exact .inl ⟨h1, rfl⟩
  · refine .inr ⟨h1, ?_⟩
    have hc := cellAt_popped_succ s
    rw [Done.ok_andThen] at h
    rcases pop_cases (popped s) with ⟨h2, hq⟩ | ⟨h2, hq⟩ | ⟨-, hq⟩ <;> rw [hq] at h
    · cases h
      rw [sp_popped, size_popped, hc] at h2
      exact .inl ⟨h2, rfl⟩
    · rw [Done.ok_andThen, sp_popped, hc] at h
      rw [sp_popped, size_popped, hc] at h2
      refine .inr ⟨h2, ?_⟩
      cases hx : intItem? (s.cellAt s.sp) with
      | none =>
        rw [hx] at h
        cases h
        exact .inl ⟨.inl rfl, rfl⟩
      | some x =>
        cases hy : intItem? (s.cellAt (s.sp + 1)) with
        | none =>
          rw [hx, hy] at h
          cases h
          exact .inl ⟨.inr rfl, rfl⟩
        | some y =>
          rw [hx, hy] at h
          refine .inr ⟨x, y, rfl, rfl, ?_⟩
          cases hf : fitsW (sintW x * sintW y) with
          | false =>
            simp only [hf] at h
            cases h
            exact .inl ⟨rfl, rfl⟩
          | true =>
            simp only [hf, if_true] at h
            rcases push_cases (Datum.int (encW (sintW x * sintW y))) (popped (popped s)) with
              ⟨h3, -⟩ | ⟨-, hr⟩ | ⟨h3, -⟩
            · rcases h3 with h3 | ⟨-, h3⟩
              · simp at h3
              · exact absurd (by simp [cellAt_popped]) h3
            · rw [hr] at h
              cases h
              exact .inr ⟨rfl, rfl⟩
            · simp only [sp_popped, size_popped] at h3
              omega
    · cases h
  · cases h

end Sys2Proof.Machine
end

