-- ==== Sys2Proof/Laws/Words.lean ====
section
/-! SUPPORT. The fields of a packed cell word, and packing a word's own fields gives the word back (30_encoding.md R70); KIND
bits there and back (R73). -/

namespace Sys2Proof

@[simp] theorem tagOf_packFields (t : BitVec 2) (o : Token) (k : BitVec 2) (d : Word) :
    tagOf (packFields t o k d) = t := by
  ext i hi
  simp only [tagOf, packFields, BitVec.getElem_extractLsb', BitVec.getLsbD_append]
  have h1 : ¬ 74 + i < 64 := by omega
  have h2 : ¬ 74 + i - 64 < 2 := by omega
  have h3 : ¬ 74 + i - 64 - 2 < 8 := by omega
  have h4 : 74 + i - 64 - 2 - 8 = i := by omega
  simp [h1, h2, h3, h4, BitVec.getLsbD_eq_getElem hi]

@[simp] theorem opcOf_packFields (t : BitVec 2) (o : Token) (k : BitVec 2) (d : Word) :
    opcOf (packFields t o k d) = o := by
  ext i hi
  simp only [opcOf, packFields, BitVec.getElem_extractLsb', BitVec.getLsbD_append]
  have h1 : ¬ 66 + i < 64 := by omega
  have h2 : ¬ 66 + i - 64 < 2 := by omega
  have h3 : 66 + i - 64 - 2 = i := by omega
  simp [h1, h2, h3, hi]

@[simp] theorem kindBitsOf_packFields (t : BitVec 2) (o : Token) (k : BitVec 2) (d : Word) :
    kindBitsOf (packFields t o k d) = k := by
  ext i hi
  simp only [kindBitsOf, packFields, BitVec.getElem_extractLsb', BitVec.getLsbD_append]
  have h1 : ¬ 64 + i < 64 := by omega
  have h2 : 64 + i - 64 = i := by omega
  simp [h1, h2, hi]

@[simp] theorem dataOf_packFields (t : BitVec 2) (o : Token) (k : BitVec 2) (d : Word) :
    dataOf (packFields t o k d) = d := by
  ext i hi
  simp only [dataOf, packFields, BitVec.getElem_extractLsb', BitVec.getLsbD_append]
  simp [hi]

/-- A word is the packing of its own four fields. -/
theorem packFields_fields (w : CellWord) :
    packFields (tagOf w) (opcOf w) (kindBitsOf w) (dataOf w) = w := by
  ext i hi
  rw [← BitVec.getLsbD_eq_getElem, ← BitVec.getLsbD_eq_getElem]
  simp only [packFields, BitVec.getLsbD_append, tagOf, opcOf, kindBitsOf, dataOf, BitVec.getLsbD_extractLsb']
  by_cases h1 : i < 64
  · simp [h1]
  · by_cases h2 : i - 64 < 2
    · simp [h1, h2]; congr 1; omega
    · by_cases h3 : i - 64 - 2 < 8
      · simp [h1, h2, h3]; congr 1; omega
      · have h4 : i - 64 - 2 - 8 < 2 := by omega
        simp [h1, h2, h3, h4]; congr 1; omega

@[simp] theorem kindOfBits_bits (k : Kind) : kindOfBits k.bits = some k := by
  cases k <;> rfl

theorem bits_of_kindOfBits {b : BitVec 2} {k : Kind} (h : kindOfBits b = some k) : k.bits = b := by
  unfold kindOfBits at h
  split at h
  · cases h; simp_all [Kind.bits]
  · split at h
    · cases h; simp_all [Kind.bits]
    · split at h
      · cases h; simp_all [Kind.bits]
      · cases h

end Sys2Proof
end

