-- ==== Sys2Proof/Laws/PerInstr.lean ====
section
/-! SUPPORT. Per instruction: the header pattern of its row in spec/opcode_table.json (30_encoding.md R77), for every operand
field. -/

namespace Sys2Proof.Laws.Header

/-- The row's match under the mask 0xFFC, TAG and OPC alone: `HDR & 0xFFC` (R77). -/
def pattern : Instr → BitVec 12
  | .push _ => 0x404#12
  | .print _ => 0x408#12
  | .call _ => 0x40C#12
  | .mult _ => 0x410#12
  | .ret _ => 0x414#12
  | .stop _ => 0x418#12

/-- The encoded instruction carries its row's header pattern. -/
def Statement (i : Instr) : Prop := hdrOf (encode i) &&& 0xFFC#12 = pattern i

/-- The header of a packed word is made of TAG, OPC and KIND. -/
theorem hdrOf_packFields (t : BitVec 2) (o : Token) (k : BitVec 2) (d : Word) :
    hdrOf (packFields t o k d) = t ++ o ++ k := by
  ext i hi
  rw [← BitVec.getLsbD_eq_getElem, ← BitVec.getLsbD_eq_getElem]
  simp only [hdrOf, packFields, BitVec.getLsbD_extractLsb', BitVec.getLsbD_append]
  have h1 : ¬ 64 + i < 64 := by omega
  have h2 : 64 + i - 64 = i := by omega
  simp [h1, h2, hi]

/-- Whatever the kind of the operand, the header under the mask is the pattern of the token. -/
theorem header_of_cell (o : Token) (d : Datum) :
    hdrOf (Cell.instr o d).toWord &&& 0xFFC#12 = (1#2 ++ o ++ 0#2 : BitVec 12) := by
  unfold Cell.toWord
  rw [hdrOf_packFields]
  generalize d.kind.bits = k
  revert o k
  decide

theorem push (d : Datum) : Statement (.push d) := header_of_cell 0x01#8 d

theorem print (d : Datum) : Statement (.print d) := header_of_cell 0x02#8 d

theorem call (d : Datum) : Statement (.call d) := header_of_cell 0x03#8 d

theorem mult (d : Datum) : Statement (.mult d) := header_of_cell 0x04#8 d

theorem ret (d : Datum) : Statement (.ret d) := header_of_cell 0x05#8 d

theorem stop (d : Datum) : Statement (.stop d) := header_of_cell 0x06#8 d

end Sys2Proof.Laws.Header
end

