-- ==== Sys2Proof/Laws/Step.lean ====
section
/-! SUPPORT. Inversion lemmas of the run loop and of the host's commands, and what `withFetchWord` sets up. -/

namespace Sys2Proof.Machine

variable {s t : State}

/-- An iteration at a `pc` that names a cell dispatches that cell. -/
theorem iterate_at {a : Nat} (ha : sintW s.pc = a) (hl : a < s.size) : iterate s = dispatch (s.cellAt a) s := by
  unfold iterate pastEnd fetch
  rw [if_neg (by simp; omega), if_neg (by omega), readCell_eq, if_pos (by omega)]
  simp [ha]

/-- An iteration ends the run at its test, fails at its fetch, fails at its decode, or runs an instruction. -/
theorem iterate_cases (h : iterate s = .next t) :
    ((s.size : Int) ≤ sintW s.pc ∧ t = s.finish ⟨.ended, .none, 0⟩) ∨
    (sintW s.pc < 0 ∧ t = s.fail .invalidAddressPointer 0) ∨
    ∃ a : Nat, sintW s.pc = a ∧ a < s.size ∧
      ((∃ r, decode (s.cellAt a) = .error r ∧ t = s.fail .unknownInstruction (s.cellAt a).toWord) ∨
        ∃ i, decode (s.cellAt a) = .ok i ∧ exec i s = .next t) := by
  by_cases hp : (s.size : Int) ≤ sintW s.pc
  · left
    simp only [iterate, pastEnd, hp, decide_true, if_true] at h
    cases h
    exact ⟨hp, rfl⟩
  · right
    by_cases hn : sintW s.pc < 0
    · left
      simp only [iterate, pastEnd, hp, decide_false, fetch, hn, if_true] at h
      cases h
      exact ⟨hn, rfl⟩
    · right
      refine ⟨(sintW s.pc).toNat, by omega, by omega, ?_⟩
      rw [iterate_at (a := (sintW s.pc).toNat) (by omega) (by omega)] at h
      unfold dispatch at h
      split at h
      · exact .inr ⟨_, ‹_›, h⟩
      · cases h
        exact .inl ⟨_, ‹_›, rfl⟩

/-- A command with a next state was issued while READY, and it is one of these. -/
theorem issue_cases {c : Command} (h : issue c s = .next t) :
    s.engine = .ready ∧
      ((∃ z n, c = .reset z ∧ resetSize? z = some n ∧
          t = { State.resetTo n with commands := s.commands, output := s.output }) ∨
        (∃ d, c = .setAddress d ∧
          ((intDatum? d = none ∧ t = s.fail .invalidAddressType 0) ∨
            ∃ v, intDatum? d = some v ∧
              ((cellIndex? s.size v = none ∧ t = s.fail .invalidAddressPointer 0) ∨
                ∃ a, cellIndex? s.size v = some a ∧ t = (s.setPc v).respond Resp.okay))) ∨
        (∃ op d, c = .insert op d ∧
          ((op.isToken = false ∧ t = s.fail .invalidInstructionType 0) ∨
            (cellIndex? s.size s.pc = none ∧ t = s.fail .invalidAddressPointer 0) ∨
            ∃ a, cellIndex? s.size s.pc = some a ∧
              t = ((s.setCell a (.instr op.token (storedOperand d))).setPc (s.pc + 1)).respond Resp.okay)) ∨
        (c = .execute ∧ t = s.setEngine .running)) := by
  unfold issue at h
  split at h
  · cases h
  · rename_i he
    refine ⟨he, ?_⟩
    cases c with
    | reset z =>
      simp only [issueReset] at h
      split at h <;> cases h
      exact .inl ⟨z, _, rfl, ‹_›, rfl⟩
    | setAddress d =>
      refine .inr (.inl ⟨d, rfl, ?_⟩)
      simp only [issueSetAddress] at h
      split at h
      · cases h
        exact .inl ⟨‹_›, rfl⟩
      · refine .inr ⟨_, ‹_›, ?_⟩
        split at h <;> cases h
        · exact .inl ⟨‹_›, rfl⟩
        · exact .inr ⟨_, ‹_›, rfl⟩
    | insert op d =>
      refine .inr (.inr (.inl ⟨op, d, rfl, ?_⟩))
      simp only [issueInsert] at h
      split at h
      · cases h
        exact .inl ⟨‹_›, rfl⟩
      · split at h
        · cases h
          exact .inr (.inl ⟨‹_›, rfl⟩)
        · rename_i a ha
          rw [writeCell_eq, if_pos (cellIndex?_eq_some.mp ha).2.2] at h
          cases h
          exact .inr (.inr ⟨a, ha, rfl⟩)
    | execute =>
      cases h
      exact .inr (.inr (.inr ⟨rfl, rfl⟩))

/-- A READY step issues the next command, or does nothing. -/
theorem ready_step_cases (hr : s.engine = .ready) (h : step s = .next t) :
    (s.commands = [] ∧ t = s) ∨ ∃ c cs, s.commands = c :: cs ∧ issue c (s.setCommands cs) = .next t := by
  simp only [step, hr, serveHost] at h
  split at h
  · cases h
    exact .inl ⟨‹_›, rfl⟩
  · exact .inr ⟨_, _, ‹_›, h⟩

/-- `withFetchWord` makes the next step dispatch the cell its word stands for (entry 9). -/
theorem step_withFetchWord (hs : 0 < s.size) {n w : Nat} {c : Cell} (hc : tableCell w = some c) :
    step (s.withFetchWord n w) = dispatch c (s.withFetchWord n w) := by
  have hrun : (s.withFetchWord n w).engine = .running := by
    simp [State.withFetchWord]
  have hstep : step (s.withFetchWord n w) = iterate (s.withFetchWord n w) := by
    simp only [step, hrun]
  rw [hstep]
  cases hi : cellIndex? s.size s.pc with
  | none =>
    have hcell : (s.withFetchWord n w).cellAt 0 = c := by
      simp [State.withFetchWord, hi, hc]
    have hpc : sintW (s.withFetchWord n w).pc = (0 : Nat) := by
      simp [State.withFetchWord, hi, sintW]
    rw [iterate_at hpc (by simpa [State.withFetchWord, hi] using hs), hcell]
  | some a =>
    obtain ⟨-, ha, hl⟩ := cellIndex?_eq_some.mp hi
    have hcell : (s.withFetchWord n w).cellAt a = c := by
      simp [State.withFetchWord, hi, hc]
    have hpc : sintW (s.withFetchWord n w).pc = a := by
      simpa [State.withFetchWord, hi] using ha
    rw [iterate_at hpc (by simpa [State.withFetchWord, hi] using hl), hcell]

end Sys2Proof.Machine
end

