-- ==== Sys2Proof/Tests/Slice0.lean ====
section
/-! SUPPORT. The model's own tests: refused ill-formed terms, words written out from 30_encoding.md R70 to R76, single steps
with the results of 95_test_vectors.md, and for every obligation with hypotheses a concrete case that meets them. -/

namespace Sys2Proof.Tests

open Sys2Proof.Machine

/-- A RUNNING machine of `n` cells. -/
def run (n : Nat) (mem : Memory) (pc : Word) (sp : Nat) : State :=
  { State.resetTo n with mem := mem, pc := pc, sp := sp, engine := .running }

/-- A READY machine of `n` cells with commands to issue. -/
def idle (n : Nat) (mem : Memory) (pc : Word) (sp : Nat) (cs : List Command) : State :=
  { State.resetTo n with mem := mem, pc := pc, sp := sp, commands := cs }

/-- The next state, where there is one. -/
def after : Host.Outcome State Fault Refusal → Option State
  | .next t => some t
  | .fault _ => none
  | .refused _ => none

/-- `pc`, `sp`, and one cell after a step. -/
def seen (a : Nat) (o : Host.Outcome State Fault Refusal) : Option (Int × Nat × Cell) :=
  (after o).map fun t => (sintW t.pc, t.sp, t.cellAt a)

/-- RESP and `sp` after a step. -/
def response (o : Host.Outcome State Fault Refusal) : Option (Resp × Nat) :=
  (after o).map fun t => (t.resp, t.sp)

def pushInt (v : Word) : Cell := .instr 0x01#8 (Datum.int v)
def printC : Cell := .instr 0x02#8 Datum.absent
def callInt (v : Word) : Cell := .instr 0x03#8 (Datum.int v)
def multC : Cell := .instr 0x04#8 Datum.absent
def retC : Cell := .instr 0x05#8 Datum.absent
def stopC : Cell := .instr 0x06#8 Datum.absent
def intV (v : Word) : Cell := .value (Datum.int v)

/-! ### Ill-formed terms are refused (R75) -/

theorem test_absent_with_data_is_ill_formed : (Instr.push ⟨.absent, 5⟩).wellFormed = false := by decide

theorem test_ignored_operand_is_checked_too : (Instr.stop ⟨.absent, 1⟩).wellFormed = false := by decide

theorem test_absent_value_is_no_canonical_cell : (Cell.value Datum.absent).canonical = false := by decide

theorem test_other_operand_is_well_formed : (Instr.mult (Datum.other 7)).wellFormed = true := by decide

theorem test_reserved_tag_is_refused : cellOfWord 0xC000000000000000000#76 = .error .reservedTag := by decide

theorem test_reserved_kind_is_refused : decodeWord 0x4070000000000000001#76 = .error .reservedKind := by decide

theorem test_empty_with_bits_is_refused : cellOfWord 0x0000000000000000001#76 = .error .emptyNotZero := by decide

theorem test_value_with_opcode_is_refused : cellOfWord 0x8050000000000000001#76 = .error .valueOpcodeNotZero := by
  decide

theorem test_absent_value_is_refused : cellOfWord 0x8000000000000000000#76 = .error .valueAbsent := by decide

theorem test_absent_data_is_refused : decodeWord 0x4080000000000000001#76 = .error .absentDataNotZero := by decide

/-! ### Words written out from R70, R72, R73 and R76: TAG, OPC, KIND, DATA -/

theorem test_decode_push_word :
    decodeWord (0b01#2 ++ 0x01#8 ++ 0b10#2 ++ 0x0000000000000007#64) = .ok (.push (Datum.other 7)) := by decide

theorem test_decode_print_word :
    decodeWord (0b01#2 ++ 0x02#8 ++ 0b00#2 ++ 0x0000000000000000#64) = .ok (.print Datum.absent) := by decide

theorem test_decode_call_word :
    decodeWord (0b01#2 ++ 0x03#8 ++ 0b01#2 ++ 0x0000000000000032#64) = .ok (.call (Datum.int 50)) := by decide

theorem test_decode_mult_word :
    decodeWord (0b01#2 ++ 0x04#8 ++ 0b01#2 ++ 0x8000000000000000#64) =
      .ok (.mult (Datum.int 0x8000000000000000#64)) := by decide

theorem test_decode_ret_word :
    decodeWord (0b01#2 ++ 0x05#8 ++ 0b00#2 ++ 0x0000000000000000#64) = .ok (.ret Datum.absent) := by decide

theorem test_decode_stop_word :
    decodeWord (0b01#2 ++ 0x06#8 ++ 0b00#2 ++ 0x0000000000000000#64) = .ok (.stop Datum.absent) := by decide

theorem test_unrecognised_token :
    decodeWord 0x41C0000000000000000#76 = .error (.unrecognised 0x07#8) := by decide

theorem test_encode_push_minus_one : encode (.push (Datum.int (-1))) = 0x405FFFFFFFFFFFFFFFF#76 := by decide

/-- The opcode table's numbering: its match over HDR, and the whole 76-bit word (entry 10). -/
theorem test_table_numbering :
    decodeTableWord 16 0x40C = some (.call Datum.absent) ∧
      decodeTableWord 80 0x4180000000000000000 = some (.stop Datum.absent) ∧ decodeTableWord 80 0 = none := by
  decide

/-- 95_test_vectors.md 2.3: at reset the placed instruction is the one that runs. -/
theorem test_first_instruction_after_reset :
    seen 99 (step (State.reset.withFetchWord 80 0x40500000000000003F1)) = some (1, 99, intV 1009) := by decide

/-! ### Instructions, with the results of 95_test_vectors.md -/

/-- V-PUSH-3. -/
theorem test_push_most_negative :
    seen 3 (step (run 4 [(0, pushInt 0x8000000000000000#64)] 0 4)) = some (1, 3, intV 0x8000000000000000#64) := by
  decide

/-- V-PUSH-7: the push meets the next instruction. -/
theorem test_push_meets_program :
    response (step (run 2 [(0, pushInt 1), (1, pushInt 2)] 0 2)) = some (⟨.failed, .stackOverflow, 0⟩, 2) := by decide

/-- V-PRINT-4: an INSTR item is emitted as it is and erased. -/
theorem test_print_instr_item :
    (after (step (run 4 [(0, printC), (3, stopC)] 0 3))).map (fun t => (t.output, t.cellAt 3, t.sp)) =
      some ([stopC], .empty, 4) := by decide

/-- V-PRINT-2. -/
theorem test_print_empty_stack :
    response (step (run 4 [(0, printC)] 0 4)) = some (⟨.failed, .emptyStack, 0⟩, 4) := by decide

/-- V-CALL-6: the negative target is taken. -/
theorem test_call_negative : seen 0 (step (run 4 [(0, callInt (-1))] 0 4)) = some (-1, 4, callInt (-1)) := by decide

/-- V-CALL-2. -/
theorem test_call_absent :
    response (step (run 4 [(0, .instr 0x03#8 Datum.absent)] 0 4)) = some (⟨.failed, .invalidAddressType, 0⟩, 4) := by
  decide

/-- V-MULT-9: 2^62 times -2 fits. -/
theorem test_mult_reaches_minimum :
    seen 7 (step (run 8 [(0, multC), (6, intV (-2)), (7, intV 0x4000000000000000#64)] 0 6)) =
      some (1, 7, intV 0x8000000000000000#64) := by decide

/-- V-MULT-6: -2^63 times -1 does not fit; both items are lost. -/
theorem test_mult_overflow :
    response (step (run 8 [(0, multC), (6, intV (-1)), (7, intV 0x8000000000000000#64)] 0 6)) =
      some (⟨.failed, .valueOverflow, 0⟩, 8) := by decide

/-- V-RET-6. -/
theorem test_ret_jumps : seen 99 (step (run 100 [(52, retC), (99, intV 6)] 52 99)) = some (6, 100, .empty) := by decide

/-- V-RET-3: the item of the wrong type stays popped. -/
theorem test_ret_type_error :
    response (step (run 8 [(0, retC), (7, .value (Datum.other 2))] 0 7)) =
      some (⟨.failed, .invalidAddressType, 0⟩, 8) := by decide

/-- V-STOP-2: STOP does not drain the stack. -/
theorem test_stop_keeps_stack :
    (after (step (run 4 [(0, stopC), (3, intV 1)] 0 3))).map (fun t => (t.engine, t.resp, t.cellAt 3, t.sp, t.pc)) =
      some (.ready, ⟨.stopped, .none, 0⟩, intV 1, 3, 0) := by decide

/-- V-UNK-3. -/
theorem test_unknown_token_word :
    response (step (run 4 [(0, .instr 0xFF#8 (Datum.int 3))] 0 4)) =
      some (⟨.failed, .unknownInstruction, 0x7FD0000000000000003#76⟩, 4) := by decide

/-! ### Host commands, with the results of 95_test_vectors.md 2.1 -/

/-- V-HOST-3. -/
theorem test_set_address_out_of_range :
    (after (step (idle 4 [] 2 4 [.setAddress (Datum.int 4)]))).map (fun t => (t.resp, t.pc)) =
      some (⟨.failed, .invalidAddressPointer, 0⟩, 2) := by decide

/-- V-HOST-13: INSERT overwrites a stacked value. -/
theorem test_insert_overwrites_value :
    seen 3 (step (idle 4 [(3, intV 5)] 3 3 [.insert ⟨true, 0x02#8⟩])) = some (4, 3, printC) := by decide

/-- V-HOST-11: the token check comes first. -/
theorem test_insert_token_check_first :
    response (step (idle 4 [] 4 4 [.insert ⟨false, 0x06#8⟩])) = some (⟨.failed, .invalidInstructionType, 0⟩, 4) := by
  decide

/-- V-HOST-1. -/
theorem test_reset_command : after (step (idle 9 [(1, stopC)] 3 2 [.reset (.int 4)])) = some (State.resetTo 4) := by
  decide

/-! ### Witnesses: each obligation's hypotheses met by a concrete case, clause by clause -/

theorem witness_EncodeDecodeRoundTrip : (Instr.push (Datum.int (-1))).wellFormed = true := by decide

theorem witness_DecodedWordsAreEncodings :
    decodeWord 0x41AFFFFFFFFFFFFFFFF#76 = .ok (.stop (Datum.other (-1))) := by decide

theorem witness_CanonicalCellsMatchTheirWords :
    (intV (-1)).canonical = true ∧ cellOfWord 0x801FFFFFFFFFFFFFFFF#76 = .ok (intV (-1)) := by decide

theorem witness_NonCanonicalWordsRefusedAndUnreached :
    (∀ a, ((run 4 [(0, pushInt 5)] 0 4).cellAt a).canonical = true) ∧
      (after (step (run 4 [(0, pushInt 5)] 0 4))).isSome = true :=
  ⟨fun a => Memory.canonical_read (n := 4) (by decide) a, by decide⟩

theorem witness_HeaderSelectsOpcode :
    (∃ c, cellOfWord 0x4140000000000000000#76 = .ok c) ∧
      decodeWord 0x4140000000000000000#76 = .ok (.ret Datum.absent) :=
  ⟨⟨retC, by decide⟩, by decide⟩

theorem witness_PushFollowsItsRule :
    (0 < (run 1 [] 0 1).sp ∧ (run 1 [] 0 1).sp ≤ (run 1 [] 0 1).size ∧ (run 1 [] 0 1).cellAt 0 = .empty) ∧
      (run 3 [(0, intV 3), (1, intV 2), (2, intV 1)] 3 0).sp = 0 ∧
      ((run 2 [(1, stopC)] 0 2).sp ≤ 2 ∧ (run 2 [(1, stopC)] 0 2).cellAt 1 ≠ .empty) ∧
      ((run 2 [(0, pushInt 1)] 0 1).sp = 0 + 1 ∧ sintW (run 2 [(0, pushInt 1)] 0 1).pc = 0 ∧
        decode ((run 2 [(0, pushInt 1)] 0 1).cellAt 0) = .ok (.push (Datum.int 1))) := by decide

theorem witness_PrintFollowsItsRule :
    ((run 1 [(0, intV 4)] 0 0).sp < 1 ∧ (run 1 [(0, intV 4)] 0 0).cellAt 0 ≠ .empty) ∧
      (run 1 [] 0 1).sp = (run 1 [] 0 1).size ∧
      ((run 2 [] 0 1).sp < 2 ∧ (run 2 [] 0 1).cellAt 1 = .empty) := by decide

theorem witness_CallFollowsItsRule :
    Datum.absent.kind ≠ .int ∧ (Datum.other 1).kind ≠ .int ∧ ((run 4 [] 0 4).size : Int) ≤ sintW 4 ∧
      sintW (-1) < 0 ∧ sintW 3 = (3 : Nat) ∧
      (decode ((run 4 [(0, callInt 0)] 0 4).cellAt 0) = .ok (.call (Datum.int (run 4 [(0, callInt 0)] 0 4).pc)) ∧
        sintW (run 4 [(0, callInt 0)] 0 4).pc = (0 : Nat)) := by decide

theorem witness_CallFollowsItsRule_no_instruction :
    ∀ opc d, (run 4 [(3, intV 9)] 0 4).cellAt 3 ≠ .instr opc d := by
  intro opc d h
  cases h

/-- Success at the least product -2^63, and each error. -/
theorem witness_MultFollowsItsRule :
    (-(2 ^ 63) ≤ (-2 : Word).toInt * (0x4000000000000000#64).toInt ∧
        (-2 : Word).toInt * (0x4000000000000000#64).toInt ≤ 2 ^ 63 - 1) ∧
      ((run 2 [(0, intV (-2)), (1, intV 0x4000000000000000#64)] 0 0).sp + 1 < 2) ∧
      ((run 1 [(0, intV 3)] 0 0).sp < 1 ∧ (run 1 [(0, intV 3)] 0 0).cellAt 0 ≠ .empty ∧
        (run 1 [(0, intV 3)] 0 0).sp + 1 = (run 1 [(0, intV 3)] 0 0).size) ∧
      ((run 3 [(0, intV 3)] 0 0).sp < 3 ∧ (run 3 [(0, intV 3)] 0 0).cellAt 1 = .empty) ∧
      2 ^ 63 - 1 < (2 : Word).toInt * (0x4000000000000000#64).toInt := by decide

/-- A non-integer second item, and a MULT that succeeds under an earlier StackOverflow response. -/
theorem witness_MultFollowsItsRule_types :
    (¬ ∃ x y, (run 2 [(0, intV 3), (1, stopC)] 0 0).cellAt 0 = .value (Datum.int x) ∧
        (run 2 [(0, intV 3), (1, stopC)] 0 0).cellAt 1 = .value (Datum.int y)) ∧
      (after (exec (.mult Datum.absent)
        ((run 2 [(0, intV 3), (1, intV 4)] 0 0).respond ⟨.failed, .stackOverflow, 0⟩))).map (·.resp.errKind) =
        some .stackOverflow := by
  refine ⟨?_, by decide⟩
  rintro ⟨x, y, -, h⟩
  cases h

theorem witness_RetFollowsItsRule :
    ((run 1 [(0, intV (-5))] 0 0).sp < 1 ∧ (run 1 [(0, intV (-5))] 0 0).cellAt 0 = .value (Datum.int (-5))) ∧
      (run 1 [] 0 1).sp = (run 1 [] 0 1).size ∧ (run 1 [] 0 0).cellAt 0 = .empty ∧
      ((run 1 [(0, stopC)] 0 0).cellAt 0 ≠ .empty ∧ intItem? ((run 1 [(0, stopC)] 0 0).cellAt 0) = none) ∧
      (after (exec (.ret Datum.absent) (run 1 [(0, intV (-5))] 0 0))).map (fun t => (t.engine, sintW t.pc)) =
        some (.running, -5) ∧
      (after (exec (.ret Datum.absent) (run 1 [(0, intV 1)] 0 0))).map (fun t => (t.engine, sintW t.pc)) =
        some (.running, 1) := by
  decide

theorem witness_StopFollowsItsRule :
    let s := (run 1 [(0, stopC)] 0 1).setCommands [.execute]
    s.engine = .running ∧ sintW s.pc = (0 : Nat) ∧ 0 < s.size ∧
      decode (s.cellAt 0) = .ok (.stop Datum.absent) ∧ s.commands = .execute :: [] := by decide

theorem witness_UnrecognisedCellsFail :
    decode (.instr 0x07#8 Datum.absent) = .error (.unrecognised 0x07#8) ∧
      decode (.instr 0x00#8 Datum.absent) = .error (.unrecognised 0x00#8) ∧
      decode ((run 1 [] 0 1).cellAt 0) = .error .notAnInstruction ∧
      decode ((run 1 [(0, intV 9)] 0 0).cellAt 0) = .error .notAnInstruction := by decide

theorem witness_OnlyPushAndCallReadTheOperand :
    (after (exec (.push (Datum.int 9)) (run 1 [] 0 1))).isSome = true ∧
      (after (exec (.call (Datum.int 9)) (run 1 [] 0 1))).isSome = true := by decide

/-- For the four frames: a next state by success and by error. -/
theorem witness_frames :
    ((after (exec (.push (Datum.int 9)) (run 1 [] 0 1))).map (·.engine) = some .running ∧
        (after (exec (.push (Datum.int 9)) (run 1 [(0, stopC)] 0 1))).map (·.engine) = some .ready) ∧
      ((after (exec (.print Datum.absent) (run 1 [(0, intV 1)] 0 0))).map (·.output) = some [intV 1] ∧
        (after (exec (.ret Datum.absent) (run 1 [(0, intV 1)] 0 0))).map (·.engine) = some .running ∧
        (after (exec (.ret Datum.absent) (run 1 [] 0 1))).map (·.engine) = some .ready) ∧
      ((after (exec (.mult Datum.absent) (run 2 [(0, intV 2), (1, intV 3)] 0 0))).map (·.sp) = some 1 ∧
        (after (exec (.mult Datum.absent) (run 1 [(0, intV 2)] 0 0))).map (·.engine) = some .ready) ∧
      ((after (exec (.call (Datum.int 7)) (run 1 [] 0 1))).map (·.pc) = some 7 ∧
        (after (exec (.stop Datum.absent) (run 1 [] 0 1))).map (·.engine) = some .ready) := by decide

theorem witness_StepRunsDecodedInstruction :
    let s := run 1 [(0, callInt 3)] 0 1
    s.engine = .running ∧ sintW s.pc = (0 : Nat) ∧ 0 < s.size ∧
      decode (s.cellAt 0) = .ok (.call (Datum.int 3)) ∧ decodeWord (s.cellAt 0).toWord = .ok (.call (Datum.int 3)) := by
  decide

theorem witness_LoopTestEndsRun :
    ((run 4 [] 4 4).engine = .running ∧ ((run 4 [] 4 4).size : Int) ≤ sintW (run 4 [] 4 4).pc) ∧
      ((idle 4 [] 4 4 [.execute]).engine = .ready ∧ (idle 4 [] 4 4 [.execute]).commands = .execute :: [] ∧
        ((idle 4 [] 4 4 [.execute]).size : Int) ≤ sintW (idle 4 [] 4 4 [.execute]).pc) := by decide

theorem witness_NegativePcFailsAtFetch :
    ((run 4 [] (-1) 4).engine = .running ∧ sintW (run 4 [] (-1) 4).pc < 0) ∧
      ((run 4 [(0, callInt (-1))] 0 4).Inv ∧
        (after (step (run 4 [(0, callInt (-1))] 0 4))).map (fun t => sintW t.pc) = some (-1)) ∧
      ((run 4 [(0, retC), (3, intV (-5))] 0 3).Inv ∧
        (after (step (run 4 [(0, retC), (3, intV (-5))] 0 3))).map (fun t => sintW t.pc) = some (-5)) := by decide

/-- A RUNNING step that goes on, and one for each way a run ends. -/
theorem witness_RunEndsInOneOfThreeWays :
    (after (step (run 4 [(0, pushInt 1)] 0 4))).map (·.engine) = some .running ∧
      (after (step (run 4 [(0, stopC)] 0 4))).map (·.resp.outcome) = some .stopped ∧
      (after (step (run 4 [] 4 4))).map (·.resp.outcome) = some .ended ∧
      (after (step (run 4 [] 0 4))).map (·.resp.outcome) = some .failed := by decide

theorem witness_CallToItselfNeverEnds :
    let s := run 1 [(0, callInt 0)] 0 1
    s.engine = .running ∧ sintW s.pc = (0 : Nat) ∧ 0 < s.size ∧ s.cellAt 0 = .instr 0x03#8 (Datum.int s.pc) := by
  decide

theorem witness_RunReadsNeitherCommandsNorOutput :
    (run 1 [(0, printC)] 0 0).engine = .running ∧ (after (step (run 1 [(0, printC)] 0 0))).isSome = true := by decide

theorem witness_RaiseWritesOnlyEngineAndResp :
    let s := run 1 [] (-1) 1
    (pop s = .raised .emptyStack 0 s ∧
        (pop (run 2 [(1, intV 3)] 0 1)).andThen (fun _ u => pop u) = .raised .emptyStack 0 (run 2 [] 0 2)) ∧
      s.engine = .running ∧ pastEnd s = false ∧ fetch s = .raised .invalidAddressPointer 0 s := by decide

theorem witness_ErrorsKeepPc :
    (after (step (run 2 [(1, retC)] 1 2))).map (fun t => (t.engine, t.resp.outcome)) = some (.ready, .failed) ∧
      (after (issue (.setAddress Datum.absent) (idle 2 [] 1 2 []))).map (·.resp.outcome) = some .failed := by decide

/-- Each kind that ends a run, and each kind that ends a command, arises. -/
theorem witness_ErrorKindsAndTheirSources :
    ([run 1 [(0, .instr 0x03#8 Datum.absent)] 0 1, run 1 [] (-1) 1, run 1 [(0, pushInt 1)] 0 1,
        run 1 [(0, printC)] 0 1, run 3 [(0, multC), (1, intV 1), (2, stopC)] 0 1, run 1 [] 0 1,
        run 3 [(0, multC), (1, intV 2), (2, intV 0x4000000000000000#64)] 0 1].map
          fun s => (after (step s)).map (·.resp.errKind)) =
      [some .invalidAddressType, some .invalidAddressPointer, some .stackOverflow, some .emptyStack,
        some .invalidMultArgType, some .unknownInstruction, some .valueOverflow] ∧
    ([Command.setAddress Datum.absent, .setAddress (Datum.int 1), .insert ⟨false, 1⟩].map
          fun c => (after (issue c (idle 1 [] 0 1 []))).map (·.resp.errKind)) =
      [some .invalidAddressType, some .invalidAddressPointer, some .invalidInstructionType] := by decide

theorem witness_StackOverflowOnlyFromPush :
    (run 1 [(0, pushInt 1)] 0 1).Inv ∧
      (after (step (run 1 [(0, pushInt 1)] 0 1))).map (fun t => (t.engine, t.resp.errKind)) =
        some (.ready, .stackOverflow) := by decide

theorem witness_EmptyStackOnlyFromPop :
    ((run 1 [(0, printC)] 0 1).Inv ∧
        (after (step (run 1 [(0, printC)] 0 1))).map (fun t => (t.engine, t.resp.errKind)) =
          some (.ready, .emptyStack)) ∧
      ((run 2 [(0, multC), (1, intV 3)] 0 1).Inv ∧
        (after (step (run 2 [(0, multC), (1, intV 3)] 0 1))).map (fun t => (t.engine, t.resp.errKind, t.sp)) =
          some (.ready, .emptyStack, 2)) := by decide

theorem witness_PopFollowsItsRule :
    (run 1 [] 0 1).sp = (run 1 [] 0 1).size ∧
      ((run 1 [] 0 0).sp < (run 1 [] 0 0).size ∧ (run 1 [] 0 0).cellAt 0 = .empty) ∧
      ((run 1 [(0, stopC)] 0 0).sp < 1 ∧ (run 1 [(0, stopC)] 0 0).cellAt 0 ≠ .empty) := by decide

theorem witness_PushesPopInReverse :
    let s := run 2 [] 0 2
    2 ≤ s.sp ∧ s.sp ≤ s.size ∧ (Datum.int 10).kind ≠ .absent ∧ (Datum.other 7).kind ≠ .absent ∧
      s.cellAt (s.sp - 1) = .empty ∧ s.cellAt (s.sp - 2) = .empty := by decide

theorem witness_AbsentPushLeavesAHole :
    let s := run 2 [] 0 2
    Datum.absent.kind = .absent ∧ 0 < s.sp ∧ s.sp ≤ s.size ∧ s.cellAt (s.sp - 1) = .empty ∧
      (Datum.int 9).kind ≠ .absent ∧ 1 < s.sp ∧ s.cellAt (s.sp - 2) = .empty := by decide

theorem witness_CellsBelowSpSurviveARun :
    let s := run 3 [(0, pushInt 1)] 0 3
    s.engine = .running ∧ (after (step s)).map (·.sp) = some 2 ∧ 0 < s.sp ∧ s.cellAt 0 ≠ .empty := by decide

theorem witness_OnlyPushPopAndResetWriteSp :
    (after (issue (.reset (.int 7)) (idle 2 [] 0 1 []))).map (·.sp) = some 7 ∧
      (after (issue .execute (idle 2 [] 0 1 []))).map (·.sp) = some 1 ∧
      (after (exec (.mult Datum.absent) (run 2 [(0, intV 2), (1, intV 3)] 0 0))).map (·.sp) = some 1 ∧
      ((run 2 [(0, retC), (1, intV 3)] 0 1).sp ≤ 2 ∧
        (after (step (run 2 [(0, retC), (1, intV 3)] 0 1))).map (·.sp) = some 2) := by decide

theorem witness_OutputEventsComeFromPrint :
    ((run 1 [(0, intV 4)] 0 0).sp < 1 ∧ (run 1 [(0, intV 4)] 0 0).cellAt 0 ≠ .empty) ∧
      (run 1 [] 0 1).sp = (run 1 [] 0 1).size ∧
      (after (step (run 2 [(0, printC), (1, intV 4)] 0 1))).map (·.output) = some [intV 4] := by decide

theorem witness_ResetConstructsOrIsRefused :
    (idle 4 [] 0 4 []).engine = .ready ∧ (1 : Nat) ≤ 1 ∧ (2 ^ 63 - 1 : Nat) ≤ 2 ^ 63 - 1 ∧ (0 : Int) < 1 ∧
      (2 ^ 63 - 1 : Int) < 2 ^ 63 := by decide

theorem witness_SetAddressFollowsItsRule :
    let s := idle 4 [] 2 4 []
    s.engine = .ready ∧ Datum.absent.kind ≠ .int ∧ sintW (-1) < 0 ∧ (s.size : Int) - 1 < sintW 4 ∧
      (0 ≤ sintW 3 ∧ sintW 3 ≤ (s.size : Int) - 1) := by decide

theorem witness_InsertFollowsItsRule :
    ((idle 4 [] 4 4 []).engine = .ready ∧ ((idle 4 [] 4 4 []).size : Int) - 1 < sintW (idle 4 [] 4 4 []).pc) ∧
      sintW (idle 4 [] (-1) 4 []).pc < 0 ∧
      (sintW (idle 4 [] 3 4 []).pc = (3 : Nat) ∧ 3 < (idle 4 [] 3 4 []).size) := by decide

/-- R32, R33: an ENDED run is read as READY (0) with OUTCOME 2, a failed one with OUTCOME 3. -/
theorem test_observed_codes :
    ((after (step (run 4 [] 4 4))).map fun t => (observe .engine t, observe .resp t)) =
        some (some (.engine 0), some (.resp 2 0 0)) ∧
      ((after (step (run 4 [] (-1) 4))).map fun t => observe .resp t) = some (some (.resp 3 2 0)) := by decide

theorem witness_ExecuteStartsRunFromHere :
    (idle 4 [(0, stopC)] 0 4 [.execute]).engine = .ready ∧
      (idle 4 [(0, stopC)] 0 4 [.execute]).commands = .execute :: [] := by decide

theorem witness_HostCommandsAreServedInOrder :
    ((idle 4 [] 0 4 []).engine = .ready ∧ (idle 4 [] 0 4 []).commands = []) ∧
      (idle 4 [] 0 4 [.execute]).commands = .execute :: [] ∧ (run 4 [] 0 4).engine = .running ∧
      (after (issue .execute (idle 4 [] 0 4 []))).isSome = true := by decide

theorem witness_ObservationWhileReady :
    ((idle 4 [] 0 4 []).engine = .ready ∧ 3 < (idle 4 [] 0 4 []).size) ∧ (run 4 [] 0 4).engine = .running ∧
      (idle 4 [] 0 4 []).size ≤ 4 := by decide

theorem witness_SetAddressThenInsertPlacesThere :
    let s := idle 4 [(3, intV 1)] 0 3 [.setAddress (Datum.int (BitVec.ofNat 64 3)), .insert ⟨true, 0x42#8⟩ (Datum.int 7)]
    s.Inv ∧ s.engine = .ready ∧ 3 < s.size ∧ (Datum.int 7).canonical = true ∧
      s.commands =
        .setAddress (Datum.int (BitVec.ofNat 64 3)) :: .insert ⟨true, 0x42#8⟩ (Datum.int 7) :: [] := by decide

theorem witness_SizeChangesOnlyByReset :
    (after (step (idle 4 [] 0 4 [.reset (.int 9)]))).map (·.size) = some 9 ∧ (idle 4 [] 0 4 []).size ≠ 9 := by decide

theorem witness_EveryStepKeepsTheInvariant :
    ((run 4 [(0, printC), (3, intV 1)] 0 3).Inv ∧
        (after (step (run 4 [(0, printC), (3, intV 1)] 0 3))).isSome = true) ∧
      ((idle 4 [] 0 4 [.insert ⟨true, 0x01#8⟩ (Datum.int 1)]).Inv ∧
        (after (step (idle 4 [] 0 4 [.insert ⟨true, 0x01#8⟩ (Datum.int 1)]))).isSome = true) := by decide

theorem witness_ResetMeetsTheInvariant : (1 : Nat) ≤ 1 ∧ (2 ^ 63 - 1 : Nat) ≤ 2 ^ 63 - 1 := by decide

theorem witness_LegalStatesAlwaysStep :
    (run 1 [] 0 0).Inv ∧ ¬ (run 1 [] 0 0).badResetNext ∧ (idle 1 [] 0 1 [.reset (.int 0)]).Inv ∧
      (idle 1 [] 0 1 [.reset (.int 0)]).badResetNext := by
  refine ⟨by decide, ?_, by decide, rfl, _, _, rfl, rfl⟩
  rintro ⟨h, -⟩
  exact absurd h (by decide)

end Sys2Proof.Tests
end

section
/-! SUPPORT and SETTLED. The state that construction with `n` cells gives, field by field (R35), and the legality of the
size `State.reset` is built with (R7, entry 2). -/

namespace Sys2Proof.Machine.State

@[simp] theorem size_resetTo (n : Nat) : (resetTo n).size = n := rfl
@[simp] theorem pc_resetTo (n : Nat) : (resetTo n).pc = 0 := rfl
@[simp] theorem sp_resetTo (n : Nat) : (resetTo n).sp = n := rfl
@[simp] theorem engine_resetTo (n : Nat) : (resetTo n).engine = .ready := rfl
@[simp] theorem resp_resetTo (n : Nat) : (resetTo n).resp = ⟨.ok, .none, 0⟩ := rfl

@[simp] theorem cellAt_resetTo (n a : Nat) : (resetTo n).cellAt a = .empty := Memory.read_nil a

/-- Construction leaves the stack empty: `sp` is N (R28, R35). -/
theorem sp_resetTo_eq_size (n : Nat) : (resetTo n).sp = (resetTo n).size := by
  rw [sp_resetTo, size_resetTo]

end Sys2Proof.Machine.State

namespace Sys2Proof

theorem Config.one_le_resetSize : 1 ≤ Config.resetSize := by decide

theorem Config.resetSize_le : Config.resetSize ≤ 2 ^ 63 - 1 := by decide

end Sys2Proof

namespace Sys2Proof.Proofs

open Sys2Proof.Machine

/-- Settles O37: each field from its lemma about `State.resetTo`, and `State.reset` from the legality of
`Config.resetSize`. -/
theorem resetValues : Obligations.ResetValues :=
  ⟨fun n => ⟨State.cellAt_resetTo n, State.pc_resetTo n, State.sp_resetTo_eq_size n, State.engine_resetTo n,
      State.resp_resetTo n⟩,
    Config.resetSize, Config.one_le_resetSize, Config.resetSize_le, rfl⟩

end Sys2Proof.Proofs
end

section
/-! SUPPORT and SETTLED. Which raw words the cell decoder refuses, TAG by TAG (R72, R75); every step keeps memory's cells
canonical (R74, R75); which instructions read their operand (R78). -/

namespace Sys2Proof

/-! ### The refused words, by TAG -/

/-- A two-bit field has one of four values. -/
theorem bitVec2_cases (b : BitVec 2) : b = 0b00#2 ∨ b = 0b01#2 ∨ b = 0b10#2 ∨ b = 0b11#2 := by
  revert b
  decide

variable {w : CellWord}

/-- TAG EMPTY: every word but zero is refused. -/
theorem refused_iff_of_tag_empty (ht : tagOf w = 0b00#2) : (∃ r, cellOfWord w = .error r) ↔ w ≠ 0#76 := by
  unfold cellOfWord
  rw [if_pos ht]
  by_cases hw : w = 0#76 <;> simp [hw]

/-- TAG INSTR: the reserved kind is refused, and ABSENT with other DATA than 0. -/
theorem refused_iff_of_tag_instr (ht : tagOf w = 0b01#2) :
    (∃ r, cellOfWord w = .error r) ↔
      kindBitsOf w = 0b11#2 ∨ kindBitsOf w = 0b00#2 ∧ dataOf w ≠ 0#64 := by
  obtain hk | hk | hk | hk := bitVec2_cases (kindBitsOf w)
  · by_cases hd : dataOf w = 0#64 <;> simp [cellOfWord, ht, hk, kindOfBits, hd]
  · simp [cellOfWord, ht, hk, kindOfBits]
  · simp [cellOfWord, ht, hk, kindOfBits]
  · simp [cellOfWord, ht, hk, kindOfBits]

/-- TAG VALUE: the reserved kind and ABSENT are refused, and any OPC but 0. -/
theorem refused_iff_of_tag_value (ht : tagOf w = 0b10#2) :
    (∃ r, cellOfWord w = .error r) ↔
      kindBitsOf w = 0b11#2 ∨ kindBitsOf w = 0b00#2 ∨ opcOf w ≠ 0#8 := by
  obtain hk | hk | hk | hk := bitVec2_cases (kindBitsOf w)
  · by_cases hd : dataOf w = 0#64 <;> by_cases ho : opcOf w = 0#8 <;> simp [cellOfWord, ht, hk, kindOfBits, hd, ho]
  · by_cases ho : opcOf w = 0#8 <;> simp [cellOfWord, ht, hk, kindOfBits, ho]
  · by_cases ho : opcOf w = 0#8 <;> simp [cellOfWord, ht, hk, kindOfBits, ho]
  · simp [cellOfWord, ht, hk, kindOfBits]

/-- The reserved TAG is refused. -/
theorem refused_of_tag_reserved (ht : tagOf w = 0b11#2) : ∃ r, cellOfWord w = .error r :=
  ⟨.reservedTag, by simp [cellOfWord, ht]⟩

/-- R75's list of the words that are no cell words. -/
theorem refused_iff (w : CellWord) :
    (∃ r, cellOfWord w = .error r) ↔
      tagOf w = 0b11#2 ∨
        (tagOf w ≠ 0b00#2 ∧ kindBitsOf w = 0b11#2) ∨
        (tagOf w = 0b10#2 ∧ (kindBitsOf w = 0b00#2 ∨ opcOf w ≠ 0#8)) ∨
        (tagOf w = 0b00#2 ∧ w ≠ 0#76) ∨
        (tagOf w ≠ 0b00#2 ∧ kindBitsOf w = 0b00#2 ∧ dataOf w ≠ 0#64) := by
  obtain ht | ht | ht | ht := bitVec2_cases (tagOf w)
  · rw [refused_iff_of_tag_empty ht]
    simp [ht]
  · rw [refused_iff_of_tag_instr ht]
    simp [ht]
  · rw [refused_iff_of_tag_value ht]
    simp [ht]
    tauto
  · simp [ht, refused_of_tag_reserved ht]

end Sys2Proof

/-! ### Canonical memories -/

namespace Sys2Proof.Machine

/-- Every cell of the memory is one that R74 lists. -/
def Memory.AllCanonical (m : Memory) : Prop := ∀ a, (m.read a).canonical = true

theorem Memory.AllCanonical.nil : AllCanonical [] := fun _ => rfl

theorem Memory.AllCanonical.write {m : Memory} (hm : m.AllCanonical) (a : Nat) (c : Cell)
    (hc : c.canonical = true) : (m.write a c).AllCanonical := by
  intro b
  rw [read_write]
  split
  · exact hc
  · exact hm b

variable {s t : State}

theorem allCanonical_pushed (hs : s.mem.AllCanonical) (d : Datum) : (pushed d s).mem.AllCanonical :=
  hs.write (s.sp - 1) (stackedCell d) (stackedCell_canonical d)

theorem allCanonical_popped (hs : s.mem.AllCanonical) : (popped s).mem.AllCanonical :=
  hs.write s.sp .empty rfl

/-- An instruction keeps memory, or changes it by pops and a push. -/
theorem exec_keeps_allCanonical {i : Instr} (h : exec i s = .next t) (hs : s.mem.AllCanonical) :
    t.mem.AllCanonical := by
  cases i with
  | push d =>
    obtain ⟨-, rfl⟩ | ⟨-, rfl⟩ := execPush_cases (d := d) h
    · exact hs
    · exact allCanonical_pushed hs d
  | print d =>
    obtain ⟨-, rfl⟩ | ⟨-, rfl⟩ := execPrint_cases (d := d) h
    · exact hs
    · exact allCanonical_popped hs
  | call d =>
    obtain ⟨-, rfl⟩ | ⟨v, -, rfl⟩ := execCall_cases (d := d) h
    · exact hs
    · exact hs
  | mult d =>
    obtain ⟨-, rfl⟩ | ⟨-, ⟨-, rfl⟩ | ⟨-, ⟨-, rfl⟩ | ⟨x, y, -, -, ⟨-, rfl⟩ | ⟨-, rfl⟩⟩⟩⟩ := execMult_cases (d := d) h
    · exact hs
    · exact allCanonical_popped hs
    · exact allCanonical_popped (allCanonical_popped hs)
    · exact allCanonical_popped (allCanonical_popped hs)
    · exact allCanonical_pushed (allCanonical_popped (allCanonical_popped hs)) _
  | ret d =>
    obtain ⟨-, rfl⟩ | ⟨-, ⟨-, rfl⟩ | ⟨v, -, rfl⟩⟩ := execRet_cases (d := d) h
    · exact hs
    · exact allCanonical_popped hs
    · exact allCanonical_popped hs
  | stop d =>
    obtain rfl := execStop_cases (d := d) h
    exact hs

theorem iterate_keeps_allCanonical (h : iterate s = .next t) (hs : s.mem.AllCanonical) :
    t.mem.AllCanonical := by
  obtain ⟨-, rfl⟩ | ⟨-, rfl⟩ | ⟨a, -, -, ⟨r, -, rfl⟩ | ⟨i, -, hi⟩⟩ := iterate_cases h
  · exact hs
  · exact hs
  · exact hs
  · exact exec_keeps_allCanonical hi hs

/-- RESET empties memory, INSERT stores a canonical operand, the other commands keep memory. -/
theorem issue_keeps_allCanonical {c : Command} (h : issue c s = .next t) (hs : s.mem.AllCanonical) :
    t.mem.AllCanonical := by
  obtain ⟨-, ⟨z, n, -, -, rfl⟩ | ⟨d, -, hset⟩ | ⟨op, d, -, hins⟩ | ⟨-, rfl⟩⟩ := issue_cases h
  · exact Memory.AllCanonical.nil
  · obtain ⟨-, rfl⟩ | ⟨v, -, ⟨-, rfl⟩ | ⟨a, -, rfl⟩⟩ := hset
    · exact hs
    · exact hs
    · exact hs
  · obtain ⟨-, rfl⟩ | ⟨-, rfl⟩ | ⟨a, -, rfl⟩ := hins
    · exact hs
    · exact hs
    · exact hs.write a (.instr op.token (storedOperand d)) (storedOperand_canonical d)
  · exact hs

theorem step_keeps_allCanonical (h : step s = .next t) (hs : s.mem.AllCanonical) : t.mem.AllCanonical := by
  cases he : s.engine with
  | running =>
    simp only [step, he] at h
    exact iterate_keeps_allCanonical h hs
  | ready =>
    obtain ⟨-, rfl⟩ | ⟨c, cs, -, hc⟩ := ready_step_cases he h
    · exact hs
    · exact issue_keeps_allCanonical hc hs

/-! ### The operand of an instruction -/

variable {v : Word}

theorem cellAt_of_exec_push_int (h0 : 0 < s.sp) (he : s.cellAt (s.sp - 1) = .empty)
    (h : exec (.push (Datum.int v)) s = .next t) : t.cellAt (s.sp - 1) = .value (Datum.int v) := by
  obtain ⟨h1 | ⟨-, h1⟩, -⟩ | ⟨-, rfl⟩ := execPush_cases (d := Datum.int v) h
  · omega
  · exact absurd he h1
  · rw [cellAt_pushed, if_pos rfl]
    rfl

theorem pc_of_exec_call_int (h : exec (.call (Datum.int v)) s = .next t) : t.pc = v := by
  obtain ⟨hk, -⟩ | ⟨u, hu, rfl⟩ := execCall_cases (d := Datum.int v) h
  · exact absurd rfl hk
  · cases hu
    rfl

end Sys2Proof.Machine

namespace Sys2Proof.Proofs

open Sys2Proof.Machine

/-- Settles O4: the refused words TAG by TAG, the step lemma of `Memory.AllCanonical`, and the cells after reset. -/
theorem nonCanonicalWordsRefusedAndUnreached : Obligations.NonCanonicalWordsRefusedAndUnreached :=
  ⟨refused_iff, fun _ _ hs h => step_keeps_allCanonical h hs, State.cellAt_resetTo Config.resetSize⟩

/-- Settles O14: the meanings of PRINT, MULT, RET and STOP do not mention their operand; PUSH and CALL by their
inversion lemmas. -/
theorem onlyPushAndCallReadTheOperand : Obligations.OnlyPushAndCallReadTheOperand :=
  ⟨fun _ _ _ => ⟨rfl, rfl, rfl, rfl⟩, fun _ _ _ h0 _ => cellAt_of_exec_push_int h0, fun _ _ _ => pc_of_exec_call_int⟩

end Sys2Proof.Proofs
end

section
/-! SUPPORT and SETTLED. The host interface: what SET_ADDRESS and INSERT answer, check by check (R103, R104), and where the
output events come from (R109). -/

namespace Sys2Proof.Machine

variable {s t : State} {d : Datum} {v : Word} {n : Nat}

/-! ### The checks of the host commands -/

theorem intDatum?_eq_none : intDatum? d = none ↔ d.kind ≠ .int := by
  obtain ⟨k, v⟩ := d
  cases k <;> simp [intDatum?]

theorem cellIndex?_eq_none : cellIndex? n v = none ↔ sintW v < 0 ∨ (n : Int) - 1 < sintW v := by
  unfold cellIndex?
  split
  · simp only [reduceCtorEq, false_iff]
    omega
  · simp only [true_iff]
    omega

theorem storedOperand_eq (d : Datum) : storedOperand d = ⟨d.kind, if d.kind = .absent then 0 else d.data⟩ := by
  obtain ⟨k, v⟩ := d
  cases k <;> rfl

/-- An error taken while READY, so by a command, changes RESP alone (R212). -/
theorem fail_of_ready (hr : s.engine = .ready) (k : ErrKind) (info : CellWord) :
    s.fail k info = { s with resp := ⟨.failed, k, info⟩ } := by
  cases s
  cases hr
  rfl

theorem issue_setAddress_of_ready (hr : s.engine = .ready) : issue (.setAddress d) s = issueSetAddress d s := by
  simp only [issue, hr]

theorem issue_insert_of_ready (hr : s.engine = .ready) (op : OpcodeArg) :
    issue (.insert op d) s = issueInsert op d s := by
  simp only [issue, hr]

/-! ### SET_ADDRESS (R103) -/

theorem issueSetAddress_of_not_int (hk : d.kind ≠ .int) :
    issueSetAddress d s = .next (s.fail .invalidAddressType 0) := by
  simp only [issueSetAddress, intDatum?_eq_none.mpr hk]

theorem issueSetAddress_of_out_of_range (hv : cellIndex? s.size v = none) :
    issueSetAddress (Datum.int v) s = .next (s.fail .invalidAddressPointer 0) := by
  simp only [issueSetAddress, Datum.int, intDatum?_int, hv]

theorem issueSetAddress_of_in_range {a : Nat} (hv : cellIndex? s.size v = some a) :
    issueSetAddress (Datum.int v) s = .next ((s.setPc v).respond Resp.okay) := by
  simp only [issueSetAddress, Datum.int, intDatum?_int, hv]

/-! ### INSERT (R104) -/

variable {tok : Token}

theorem issueInsert_of_not_token : issueInsert ⟨false, tok⟩ d s = .next (s.fail .invalidInstructionType 0) := rfl

theorem issueInsert_of_out_of_range (hp : cellIndex? s.size s.pc = none) :
    issueInsert ⟨true, tok⟩ d s = .next (s.fail .invalidAddressPointer 0) := by
  simp [issueInsert, hp]

theorem issueInsert_of_in_range {a : Nat} (hp : cellIndex? s.size s.pc = some a) :
    issueInsert ⟨true, tok⟩ d s =
      .next (((s.setCell a (.instr tok (storedOperand d))).setPc (s.pc + 1)).respond Resp.okay) := by
  obtain ⟨-, -, hl⟩ := cellIndex?_eq_some.mp hp
  simp [issueInsert, hp, writeCell_eq, hl]

/-! ### PRINT, and the events of each step (R109) -/

theorem pop_of_item (hl : s.sp < s.size) (he : s.cellAt s.sp ≠ .empty) :
    pop s = .ok (s.cellAt s.sp) (popped s) := by
  rw [pop_eq, if_neg (by omega), if_neg (by omega), if_neg he]

theorem pop_of_no_item (h : s.sp = s.size ∨ s.sp < s.size ∧ s.cellAt s.sp = .empty) :
    pop s = .raised .emptyStack 0 s := by
  obtain h | ⟨hl, he⟩ := h
  · rw [pop_eq, if_pos h]
  · rw [pop_eq, if_neg (by omega), if_neg (by omega), if_pos he]

theorem execPrint_of_item (d : Datum) (hl : s.sp < s.size) (he : s.cellAt s.sp ≠ .empty) :
    execPrint d s = .next (((popped s).emit (s.cellAt s.sp)).setPc (s.pc + 1)) := by
  rw [execPrint, pop_of_item hl he]
  rfl

theorem execPrint_of_no_item (d : Datum) (h : s.sp = s.size ∨ s.sp < s.size ∧ s.cellAt s.sp = .empty) :
    execPrint d s = .next (s.fail .emptyStack 0) := by
  rw [execPrint, pop_of_no_item h]
  rfl

/-- An instruction leaves the events as they are, or is a PRINT and appends the cell at `sp`. -/
theorem exec_output {i : Instr} (h : exec i s = .next t) :
    t.output = s.output ∨ (∃ d, i = .print d) ∧ t.output = s.output ++ [s.cellAt s.sp] := by
  cases i with
  | push d =>
    obtain ⟨-, rfl⟩ | ⟨-, rfl⟩ := execPush_cases (d := d) h
    · exact .inl rfl
    · exact .inl rfl
  | print d =>
    obtain ⟨-, rfl⟩ | ⟨-, rfl⟩ := execPrint_cases (d := d) h
    · exact .inl rfl
    · exact .inr ⟨⟨d, rfl⟩, rfl⟩
  | call d =>
    obtain ⟨-, rfl⟩ | ⟨v, -, rfl⟩ := execCall_cases (d := d) h
    · exact .inl rfl
    · exact .inl rfl
  | mult d =>
    obtain ⟨-, rfl⟩ | ⟨-, ⟨-, rfl⟩ | ⟨-, ⟨-, rfl⟩ | ⟨x, y, -, -, ⟨-, rfl⟩ | ⟨-, rfl⟩⟩⟩⟩ := execMult_cases (d := d) h
    · exact .inl rfl
    · exact .inl rfl
    · exact .inl rfl
    · exact .inl rfl
    · exact .inl rfl
  | ret d =>
    obtain ⟨-, rfl⟩ | ⟨-, ⟨-, rfl⟩ | ⟨v, -, rfl⟩⟩ := execRet_cases (d := d) h
    · exact .inl rfl
    · exact .inl rfl
    · exact .inl rfl
  | stop d =>
    obtain rfl := execStop_cases (d := d) h
    exact .inl rfl

theorem iterate_output (h : iterate s = .next t) :
    t.output = s.output ∨
      (∃ d, decode (s.cellAt (sintW s.pc).toNat) = .ok (.print d)) ∧ t.output = s.output ++ [s.cellAt s.sp] := by
  obtain ⟨-, rfl⟩ | ⟨-, rfl⟩ | ⟨a, ha, -, ⟨r, -, rfl⟩ | ⟨i, hi, hx⟩⟩ := iterate_cases h
  · exact .inl rfl
  · exact .inl rfl
  · exact .inl rfl
  · obtain hkept | ⟨⟨d, rfl⟩, hout⟩ := exec_output hx
    · exact .inl hkept
    · exact .inr ⟨⟨d, by rwa [ha, Int.toNat_natCast]⟩, hout⟩

/-- RESET too leaves the events: it keeps the output port's history (entry 7). -/
theorem issue_keeps_output {c : Command} (h : issue c s = .next t) : t.output = s.output := by
  obtain ⟨-, ⟨z, n, -, -, rfl⟩ | ⟨d, -, hset⟩ | ⟨op, d, -, hins⟩ | ⟨-, rfl⟩⟩ := issue_cases h
  · rfl
  · obtain ⟨-, rfl⟩ | ⟨v, -, ⟨-, rfl⟩ | ⟨a, -, rfl⟩⟩ := hset
    · rfl
    · rfl
    · rfl
  · obtain ⟨-, rfl⟩ | ⟨-, rfl⟩ | ⟨a, -, rfl⟩ := hins
    · rfl
    · rfl
    · rfl
  · rfl

theorem ready_step_keeps_output (hr : s.engine = .ready) (h : step s = .next t) : t.output = s.output := by
  obtain ⟨-, rfl⟩ | ⟨c, cs, -, hc⟩ := ready_step_cases hr h
  · rfl
  · rw [issue_keeps_output hc, State.output_setCommands]

theorem step_of_running (hr : s.engine = .running) : step s = iterate s := by
  simp only [step, hr]

/-- A step that changes the events ran a PRINT, which appended the cell at `sp`. -/
theorem print_of_step_output_ne (h : step s = .next t) (hne : t.output ≠ s.output) :
    s.engine = .running ∧ (∃ d, decode (s.cellAt (sintW s.pc).toNat) = .ok (.print d)) ∧
      t.output = s.output ++ [s.cellAt s.sp] := by
  cases hr : s.engine with
  | ready => exact absurd (ready_step_keeps_output hr h) hne
  | running =>
    rw [step_of_running hr] at h
    exact ⟨rfl, (iterate_output h).resolve_left hne⟩

end Sys2Proof.Machine

namespace Sys2Proof.Proofs

open Sys2Proof.Machine

/-- Settles O36: what PRINT answers with an item to pop and without one, and the origin of every change of the events. -/
theorem outputEventsComeFromPrint : Obligations.OutputEventsComeFromPrint :=
  ⟨fun d _ hl he => ⟨_, execPrint_of_item d hl he, rfl⟩, fun d _ h => ⟨_, execPrint_of_no_item d h, rfl, rfl⟩,
    fun _ _ => print_of_step_output_ne⟩

/-- Settles O39: SET_ADDRESS check by check; a failure while READY writes RESP alone. -/
theorem setAddressFollowsItsRule : Obligations.SetAddressFollowsItsRule := by
  refine ⟨fun d s hr hk => ?_, fun v s hr hv => ?_, fun v s hr h0 hn => ?_⟩
  · rw [issue_setAddress_of_ready hr, issueSetAddress_of_not_int hk, fail_of_ready hr]
  · rw [issue_setAddress_of_ready hr, issueSetAddress_of_out_of_range (cellIndex?_eq_none.mpr hv), fail_of_ready hr]
  · have hi : cellIndex? s.size v = some (sintW v).toNat := cellIndex?_eq_some.mpr (by omega)
    rw [issue_setAddress_of_ready hr, issueSetAddress_of_in_range hi]
    rfl

/-- Settles O40: INSERT check by check; the operand it stores is the given one, with DATA 0 when ABSENT. -/
theorem insertFollowsItsRule : Obligations.InsertFollowsItsRule := by
  refine ⟨fun tok d s hr => ?_, fun tok d s hr hp => ?_, fun tok d s a hr ha hl => ?_, fun _ => rfl⟩
  · rw [issue_insert_of_ready hr, issueInsert_of_not_token, fail_of_ready hr]
  · rw [issue_insert_of_ready hr, issueInsert_of_out_of_range (cellIndex?_eq_none.mpr hp), fail_of_ready hr]
  · have hi : cellIndex? s.size s.pc = some a := cellIndex?_eq_some.mpr (by omega)
    rw [issue_insert_of_ready hr, issueInsert_of_in_range hi, storedOperand_eq]
    rfl

end Sys2Proof.Proofs
end

section
/-! SUPPORT and SETTLED. The stack primitives: the whole state a pop leaves (R124), and the signed reading of an integer
item's field (R127). -/

namespace Sys2Proof.Machine

/-- A pop changes memory and `sp`, and no other field. -/
theorem popped_eq (s : State) : popped s = { s with mem := s.mem.write s.sp .empty, sp := s.sp + 1 } := rfl

/-- `sint_W` is the two's-complement reading: a field with its top bit set stands for its value less `2^W` (R12). -/
theorem sintW_eq_msb_cond (v : Word) :
    sintW v = if v.msb then (v.toNat : Int) - (2 ^ 64 : Int) else (v.toNat : Int) :=
  BitVec.toInt_eq_msb_cond v

end Sys2Proof.Machine

namespace Sys2Proof.Proofs

open Sys2Proof.Machine

/-- Settles O30: pop with `sp` at the end of memory, at an EMPTY cell, and at an item, whose next state is `popped`. -/
theorem popFollowsItsRule : Obligations.PopFollowsItsRule := by
  refine ⟨fun s h => pop_of_no_item (.inl h), fun s hl he => pop_of_no_item (.inr ⟨hl, he⟩), fun s hl he => ?_⟩
  rw [pop_of_item hl he, popped_eq]

/-- Settles O31: a field comes from a VALUE cell of kind INT alone, and its integer is read by the top bit. -/
theorem integerItemsAreIntValues : Obligations.IntegerItemsAreIntValues :=
  ⟨fun _ _ => intItem?_eq_some, sintW_eq_msb_cond⟩

end Sys2Proof.Proofs
end

section
/-! SUPPORT and SETTLED. Where a negative `pc` comes from: the fetch that fails on one (R144), the increment that cannot wrap
inside memory (R27), and the change of `pc` by each step. -/

namespace Sys2Proof.Machine

variable {s t : State}

/-! ### The fetch at a negative `pc`, and the increment of one inside memory -/

theorem iterate_of_pc_neg (hn : sintW s.pc < 0) : iterate s = .next (s.fail .invalidAddressPointer 0) := by
  have htest : pastEnd s = false := decide_eq_false (by omega)
  simp [iterate, htest, fetch, hn]

/-- The increment of a field below the largest one does not wrap (R27). -/
theorem sintW_add_one {v : Word} (h0 : 0 ≤ sintW v) (hv : sintW v < 2 ^ 63 - 1) : sintW (v + 1) = sintW v + 1 := by
  have hone : BitVec.toInt (1 : Word) = 1 := by decide
  simp only [sintW] at h0 hv ⊢
  rw [BitVec.toInt_add, hone]
  exact Int.bmod_eq_of_le (by omega) (by omega)

/-- At a `pc` that names a cell, the next one is not negative: no legal size reaches the largest field (R7). -/
theorem sintW_pc_succ_nonneg {a : Nat} (hsize : s.size ≤ Config.maxSize) (ha : sintW s.pc = a) (hl : a < s.size) :
    0 ≤ sintW (s.pc + 1) := by
  unfold Config.maxSize at hsize
  rw [sintW_add_one (by omega) (by omega)]
  omega

/-! ### The `pc` that each step leaves -/

/-- An instruction keeps `pc`, advances it, or is a CALL or a RET and jumps to the integer it was given. -/
theorem exec_pc {i : Instr} (h : exec i s = .next t) :
    t.pc = s.pc ∨ t.pc = s.pc + 1 ∨ i = .call (Datum.int t.pc) ∨
      (∃ d, i = .ret d) ∧ s.cellAt s.sp = .value (Datum.int t.pc) := by
  cases i with
  | push d =>
    obtain ⟨-, rfl⟩ | ⟨-, rfl⟩ := execPush_cases (d := d) h
    · exact .inl rfl
    · exact .inr (.inl rfl)
  | print d =>
    obtain ⟨-, rfl⟩ | ⟨-, rfl⟩ := execPrint_cases (d := d) h
    · exact .inl rfl
    · exact .inr (.inl rfl)
  | call d =>
    obtain ⟨-, rfl⟩ | ⟨v, rfl, rfl⟩ := execCall_cases (d := d) h
    · exact .inl rfl
    · exact .inr (.inr (.inl rfl))
  | mult d =>
    obtain ⟨-, rfl⟩ | ⟨-, ⟨-, rfl⟩ | ⟨-, ⟨-, rfl⟩ | ⟨x, y, -, -, ⟨-, rfl⟩ | ⟨-, rfl⟩⟩⟩⟩ := execMult_cases (d := d) h
    · exact .inl rfl
    · exact .inl rfl
    · exact .inl rfl
    · exact .inl rfl
    · exact .inr (.inl rfl)
  | ret d =>
    obtain ⟨-, rfl⟩ | ⟨-, ⟨-, rfl⟩ | ⟨v, hv, rfl⟩⟩ := execRet_cases (d := d) h
    · exact .inl rfl
    · exact .inl rfl
    · exact .inr (.inr (.inr ⟨⟨d, rfl⟩, intItem?_eq_some.mp hv⟩))
  | stop d =>
    obtain rfl := execStop_cases (d := d) h
    exact .inl rfl

/-- An iteration that makes a non-negative `pc` negative ran a CALL or a RET with that target. -/
theorem iterate_pc_neg (h : iterate s = .next t) (hsize : s.size ≤ Config.maxSize) (h0 : 0 ≤ sintW s.pc)
    (hn : sintW t.pc < 0) :
    decode (s.cellAt (sintW s.pc).toNat) = .ok (.call (Datum.int t.pc)) ∨
      (∃ d, decode (s.cellAt (sintW s.pc).toNat) = .ok (.ret d)) ∧ s.cellAt s.sp = .value (Datum.int t.pc) := by
  have hkept : t.pc ≠ s.pc := fun hpc => by
    rw [hpc] at hn
    omega
  obtain ⟨-, rfl⟩ | ⟨-, rfl⟩ | ⟨a, ha, hl, ⟨r, -, rfl⟩ | ⟨i, hi, hx⟩⟩ := iterate_cases h
  · exact absurd rfl hkept
  · exact absurd rfl hkept
  · exact absurd rfl hkept
  · rw [ha, Int.toNat_natCast]
    obtain hpc | hpc | rfl | ⟨⟨d, rfl⟩, hitem⟩ := exec_pc hx
    · exact absurd hpc hkept
    · have hsucc := sintW_pc_succ_nonneg hsize ha hl
      rw [hpc] at hn
      omega
    · exact .inl hi
    · exact .inr ⟨⟨d, hi⟩, hitem⟩

/-- RESET writes 0, SET_ADDRESS an address of memory, INSERT the address after one; the rest keeps `pc`. -/
theorem issue_pc_nonneg {c : Command} (h : issue c s = .next t) (hsize : s.size ≤ Config.maxSize)
    (h0 : 0 ≤ sintW s.pc) : 0 ≤ sintW t.pc := by
  obtain ⟨-, ⟨z, n, -, -, rfl⟩ | ⟨d, -, hset⟩ | ⟨op, d, -, hins⟩ | ⟨-, rfl⟩⟩ := issue_cases h
  · exact Int.le_refl 0
  · obtain ⟨-, rfl⟩ | ⟨v, -, ⟨-, rfl⟩ | ⟨a, ha, rfl⟩⟩ := hset
    · exact h0
    · exact h0
    · exact (cellIndex?_eq_some.mp ha).1
  · obtain ⟨-, rfl⟩ | ⟨-, rfl⟩ | ⟨a, ha, rfl⟩ := hins
    · exact h0
    · exact h0
    · obtain ⟨-, hpc, hl⟩ := cellIndex?_eq_some.mp ha
      exact sintW_pc_succ_nonneg hsize hpc hl
  · exact h0

theorem ready_step_pc_nonneg (hr : s.engine = .ready) (h : step s = .next t) (hsize : s.size ≤ Config.maxSize)
    (h0 : 0 ≤ sintW s.pc) : 0 ≤ sintW t.pc := by
  obtain ⟨-, rfl⟩ | ⟨c, cs, -, hc⟩ := ready_step_cases hr h
  · exact h0
  · exact issue_pc_nonneg hc hsize h0

end Sys2Proof.Machine

namespace Sys2Proof.Proofs

open Sys2Proof.Machine

/-- Settles O21: the failing fetch, and the origin of a negative `pc`; a READY step leaves none, and the increments of a
run cannot wrap in a legal size. -/
theorem negativePcFailsAtFetch : Obligations.NegativePcFailsAtFetch := by
  refine ⟨fun s hr hn => ?_, fun s t hinv h h0 hn => ?_⟩
  · rw [step_of_running hr, iterate_of_pc_neg hn]
    rfl
  · obtain ⟨-, hsize, -⟩ := hinv
    cases hr : s.engine with
    | ready =>
      have hkept := ready_step_pc_nonneg hr h hsize h0
      omega
    | running =>
      rw [step_of_running hr] at h
      exact ⟨rfl, (iterate_pc_neg h hsize h0 hn).imp_left fun hcall => ⟨_, hcall, rfl⟩⟩

end Sys2Proof.Proofs
end

section
/-! SUPPORT and SETTLED. Each instruction by its rule: the state it leaves in every case (R161 to R165), and what a fetched
cell without a recognised opcode does (R167). -/

namespace Sys2Proof

variable {c : Cell} {opc : Token} {d : Datum}

/-! ### Cells that hold no recognised opcode (R167) -/

/-- A token is one of the six opcodes, or 0, or above them (R76). -/
theorem token_cases (opc : Token) :
    opc = 0x01#8 ∨ opc = 0x02#8 ∨ opc = 0x03#8 ∨ opc = 0x04#8 ∨ opc = 0x05#8 ∨ opc = 0x06#8 ∨
      (opc = 0#8 ∨ 0x06#8 < opc) := by
  bv_omega

theorem decode_of_unrecognised (h : opc = 0#8 ∨ 0x06#8 < opc) :
    decode (.instr opc d) = .error (.unrecognised opc) := by
  have hout : ∀ k : Token, 0x01#8 ≤ k → k ≤ 0x06#8 → opc ≠ k := by
    intro k hlo hhi
    bv_omega
  simp [decode, hout]

theorem decode_instr_error_iff : (∃ r, decode (.instr opc d) = .error r) ↔ opc = 0#8 ∨ 0x06#8 < opc := by
  obtain rfl | rfl | rfl | rfl | rfl | rfl | h := token_cases opc
  case inr.inr.inr.inr.inr.inr => exact iff_of_true ⟨_, decode_of_unrecognised h⟩ h
  all_goals simp [decode]

theorem decode_of_not_instr (h : ∀ opc d, c ≠ .instr opc d) : decode c = .error .notAnInstruction := by
  cases c with
  | empty => rfl
  | value d => rfl
  | instr opc d => exact absurd rfl (h opc d)

theorem decode_error_iff :
    (∃ r, decode c = .error r) ↔ ∀ opc d, c = .instr opc d → opc = 0#8 ∨ 0x06#8 < opc := by
  cases c with
  | empty => simp [decode]
  | value d => simp [decode]
  | instr opc d =>
    rw [decode_instr_error_iff]
    exact ⟨fun h _ _ he => by cases he; exact h, fun h => h opc d rfl⟩

end Sys2Proof

namespace Sys2Proof.Machine

variable {s t : State} {c : Cell} {i : Instr} {r : Rejection} {d : Datum} {v : Word} {a : Nat}

/-! ### One iteration, by what `pc` names -/

theorem dispatch_of_decode_ok (h : decode c = .ok i) : dispatch c s = exec i s := by
  simp only [dispatch, h]

theorem dispatch_of_decode_error (h : decode c = .error r) :
    dispatch c s = .next (s.fail .unknownInstruction c.toWord) := by
  simp only [dispatch, h]

theorem step_of_decode_ok (hr : s.engine = .running) (ha : sintW s.pc = a) (hl : a < s.size)
    (h : decode (s.cellAt a) = .ok i) : step s = exec i s := by
  rw [step_of_running hr, iterate_at ha hl, dispatch_of_decode_ok h]

theorem step_of_decode_error (hr : s.engine = .running) (ha : sintW s.pc = a) (hl : a < s.size)
    (h : decode (s.cellAt a) = .error r) :
    step s = .next (s.fail .unknownInstruction (s.cellAt a).toWord) := by
  rw [step_of_running hr, iterate_at ha hl, dispatch_of_decode_error h]

theorem step_of_pc_past_end (hr : s.engine = .running) (hp : (s.size : Int) ≤ sintW s.pc) :
    step s = .next (s.finish ⟨.ended, .none, 0⟩) := by
  have htest : pastEnd s = true := decide_eq_true hp
  rw [step_of_running hr, iterate, if_pos htest]

theorem step_of_pc_neg (hr : s.engine = .running) (hn : sintW s.pc < 0) :
    step s = .next (s.fail .invalidAddressPointer 0) := by
  rw [step_of_running hr, iterate_of_pc_neg hn]

/-! ### PUSH (R161) -/

theorem stackedCell_eq (d : Datum) : stackedCell d = if d.kind = .absent then .empty else .value d := by
  obtain ⟨k, v⟩ := d
  cases k <;> rfl

theorem push_of_room (h0 : 0 < s.sp) (hl : s.sp ≤ s.size) (he : s.cellAt (s.sp - 1) = .empty) :
    push d s = .ok () (pushed d s) := by
  rw [push_eq, if_neg (by omega), if_neg (by omega), if_neg (not_not_intro he)]

theorem push_of_no_room (h : s.sp = 0 ∨ s.sp ≤ s.size ∧ s.cellAt (s.sp - 1) ≠ .empty) :
    push d s = .raised .stackOverflow 0 s := by
  obtain h | ⟨hl, he⟩ := h
  · rw [push_eq, if_pos h]
  · rw [push_eq, if_neg (by omega : ¬ s.size < s.sp), if_pos he, ite_self]

theorem execPush_of_room (h0 : 0 < s.sp) (hl : s.sp ≤ s.size) (he : s.cellAt (s.sp - 1) = .empty) :
    execPush d s = .next (pushed d s) := by
  rw [execPush, push_of_room h0 hl he, Done.close_ok]

theorem execPush_of_no_room (h : s.sp = 0 ∨ s.sp ≤ s.size ∧ s.cellAt (s.sp - 1) ≠ .empty) :
    execPush d s = .next (s.fail .stackOverflow 0) := by
  rw [execPush, push_of_no_room h, Done.close_raised]

/-! ### CALL (R163) -/

theorem execCall_of_not_int (hk : d.kind ≠ .int) : execCall d s = .next (s.fail .invalidAddressType 0) := by
  simp only [execCall, intDatum?_eq_none.mpr hk]

/-! ### RET (R165) -/

theorem intItem?_eq_none : intItem? c = none ↔ ∀ v, c ≠ .value (Datum.int v) := by
  rw [Option.eq_none_iff_forall_ne_some]
  exact forall_congr' fun v => not_congr intItem?_eq_some

/-- An integer item is an item. -/
theorem ne_empty_of_int (h : c = .value (Datum.int v)) : c ≠ .empty := by
  rw [h]
  exact Cell.noConfusion

theorem execRet_of_no_item (d : Datum) (h : s.sp = s.size ∨ s.sp < s.size ∧ s.cellAt s.sp = .empty) :
    execRet d s = .next (s.fail .emptyStack 0) := by
  rw [execRet, pop_of_no_item h, Done.raised_andThen, Done.close_raised]

theorem execRet_of_not_int (d : Datum) (hl : s.sp < s.size) (he : s.cellAt s.sp ≠ .empty)
    (hi : intItem? (s.cellAt s.sp) = none) :
    execRet d s = .next ((popped s).fail .invalidAddressType 0) := by
  rw [execRet, pop_of_item hl he, Done.ok_andThen, hi, Done.close_raised]

theorem execRet_of_int (d : Datum) (hl : s.sp < s.size) (hc : s.cellAt s.sp = .value (Datum.int v)) :
    execRet d s = .next ((popped s).setPc v) := by
  rw [execRet, pop_of_item hl (ne_empty_of_int hc), Done.ok_andThen, intItem?_eq_some.mpr hc, Done.close_ok]

/-! ### MULT (R164) -/

/-- The second pop of MULT finds the next cell up, which the first one left as it was. -/
theorem pop_popped_of_item (hl : s.sp + 1 < s.size) (he : s.cellAt (s.sp + 1) ≠ .empty) :
    pop (popped s) = .ok (s.cellAt (s.sp + 1)) (popped (popped s)) := by
  rw [← cellAt_popped_succ] at he ⊢
  exact pop_of_item hl he

theorem pop_popped_of_no_item (hl : s.sp < s.size) (h : s.sp + 1 = s.size ∨ s.cellAt (s.sp + 1) = .empty) :
    pop (popped s) = .raised .emptyStack 0 (popped s) := by
  rw [← cellAt_popped_succ] at h
  by_cases hend : s.sp + 1 = s.size
  · exact pop_of_no_item (.inl hend)
  · exact pop_of_no_item (.inr ⟨Nat.lt_of_le_of_ne hl hend, h.resolve_left hend⟩)

theorem execMult_of_no_item (d : Datum) (h : s.sp = s.size ∨ s.sp < s.size ∧ s.cellAt s.sp = .empty) :
    execMult d s = .next (s.fail .emptyStack 0) := by
  rw [execMult, pop_of_no_item h, Done.raised_andThen, Done.close_raised]

theorem execMult_of_one_item (d : Datum) (hl : s.sp < s.size) (he : s.cellAt s.sp ≠ .empty)
    (h : s.sp + 1 = s.size ∨ s.cellAt (s.sp + 1) = .empty) :
    execMult d s = .next ((popped s).fail .emptyStack 0) := by
  rw [execMult, pop_of_item hl he, Done.ok_andThen, pop_popped_of_no_item hl h, Done.raised_andThen,
    Done.close_raised]

theorem execMult_of_not_ints (d : Datum) (hl : s.sp + 1 < s.size) (he : s.cellAt s.sp ≠ .empty)
    (he' : s.cellAt (s.sp + 1) ≠ .empty)
    (hi : intItem? (s.cellAt s.sp) = none ∨ intItem? (s.cellAt (s.sp + 1)) = none) :
    execMult d s = .next ((popped (popped s)).fail .invalidMultArgType 0) := by
  rw [execMult, pop_of_item (by omega) he, Done.ok_andThen, pop_popped_of_item hl he', Done.ok_andThen]
  split
  case h_1 hx hy => simp [hx, hy] at hi
  case h_2 => rfl

section TwoIntegers

variable {x y : Word} (hl : s.sp + 1 < s.size) (hx : s.cellAt s.sp = .value (Datum.int x))
  (hy : s.cellAt (s.sp + 1) = .value (Datum.int y))

include hl hx hy

theorem execMult_of_not_fits (d : Datum) (hf : fitsW (sintW x * sintW y) = false) :
    execMult d s = .next ((popped (popped s)).fail .valueOverflow 0) := by
  rw [execMult, pop_of_item (by omega) (ne_empty_of_int hx), Done.ok_andThen,
    pop_popped_of_item hl (ne_empty_of_int hy), Done.ok_andThen, intItem?_eq_some.mpr hx, intItem?_eq_some.mpr hy]
  simp only [hf, Bool.false_eq_true, if_false, Done.close_raised]

/-- The push of the product meets the cell the second pop cleared, so it cannot overflow. -/
theorem execMult_of_fits (d : Datum) (hf : fitsW (sintW x * sintW y) = true) :
    execMult d s = .next (pushed (Datum.int (encW (sintW x * sintW y))) (popped (popped s))) := by
  have hcleared : (popped (popped s)).cellAt (s.sp + 1) = .empty := by rw [cellAt_popped, sp_popped, if_pos rfl]
  rw [execMult, pop_of_item (by omega) (ne_empty_of_int hx), Done.ok_andThen,
    pop_popped_of_item hl (ne_empty_of_int hy), Done.ok_andThen, intItem?_eq_some.mpr hx, intItem?_eq_some.mpr hy]
  simp only [hf, if_true]
  rw [push_of_room (s := popped (popped s)) (Nat.succ_pos _) hl hcleared, Done.close_ok]

end TwoIntegers

/-- The push of MULT's product stores over the second popped cell. -/
theorem pushed_popped_popped (v : Word) (s : State) :
    pushed (Datum.int v) (popped (popped s)) =
      { s with
        mem := (s.mem.write s.sp .empty).write (s.sp + 1) (.value (Datum.int v))
        sp := s.sp + 1
        pc := s.pc + 1 } := by
  rw [← Memory.write_write (s.mem.write s.sp .empty) (s.sp + 1) .empty]
  rfl

/-- MULT raises no StackOverflow: a response of that kind was there before. -/
theorem execMult_resp_of_stackOverflow (h : execMult d s = .next t) (hk : t.resp.errKind = .stackOverflow) :
    t.resp = s.resp := by
  obtain ⟨-, rfl⟩ | ⟨-, ⟨-, rfl⟩ | ⟨-, ⟨-, rfl⟩ | ⟨x, y, -, -, ⟨-, rfl⟩ | ⟨-, rfl⟩⟩⟩⟩ := execMult_cases h
  · cases hk
  · cases hk
  · cases hk
  · cases hk
  · rfl

end Sys2Proof.Machine

namespace Sys2Proof.Proofs

open Sys2Proof.Machine

/-- Settles O7: PUSH with room and without; a PUSH just below `sp` finds its own cell, which is not EMPTY. -/
theorem pushFollowsItsRule : Obligations.PushFollowsItsRule := by
  refine ⟨Laws.Header.push, fun d s h0 hl he => ?_, fun d s h => execPush_of_no_room h,
    fun d s a hr hl hsp ha hd => ?_⟩
  · rw [← stackedCell_eq]
    exact execPush_of_room h0 hl he
  · have hown : s.cellAt (s.sp - 1) ≠ .empty := by
      intro he
      rw [hsp, Nat.add_sub_cancel] at he
      rw [he] at hd
      cases hd
    rw [step_of_decode_ok hr ha (by omega) hd]
    exact execPush_of_no_room (.inr ⟨hl, hown⟩)

/-- Settles O8: PRINT with an item to pop and without one. -/
theorem printFollowsItsRule : Obligations.PrintFollowsItsRule :=
  ⟨Laws.Header.print, fun d _ => execPrint_of_item d, fun d _ => execPrint_of_no_item d⟩

/-- Settles O9: CALL on an INT and on any other operand, then the iteration at each kind of target. -/
theorem callFollowsItsRule : Obligations.CallFollowsItsRule :=
  ⟨Laws.Header.call, fun _ _ => rfl, fun _ _ => execCall_of_not_int,
    fun v s hr => step_of_pc_past_end (s := s.setPc v) hr,
    fun v s hr => step_of_pc_neg (s := s.setPc v) hr,
    fun v s _ hr ha hl hc => step_of_decode_error (s := s.setPc v) hr ha hl (decode_of_not_instr hc),
    fun _ _ => step_of_decode_ok⟩

/-- Settles O10: MULT case by case, in the order of its checks; the product is exact because it fits. -/
theorem multFollowsItsRule : Obligations.MultFollowsItsRule := by
  refine ⟨Laws.Header.mult, fun d s x y hl hx hy hmin hmax => ?_, fun d _ => execMult_of_no_item d,
    fun d _ => execMult_of_one_item d, fun d s hl he he' hno => ?_, fun d s x y hl hx hy hout => ?_,
    fun d _ _ => execMult_resp_of_stackOverflow (d := d)⟩
  · have hf : fitsW (sintW x * sintW y) = true := (fitsW_iff _).mpr ⟨hmin, hmax⟩
    refine ⟨encW (sintW x * sintW y), sintW_encW hf, ?_⟩
    rw [← pushed_popped_popped]
    exact execMult_of_fits hl hx hy d hf
  · refine execMult_of_not_ints d hl he he' ?_
    by_contra! hsome
    obtain ⟨hsome, hsome'⟩ := hsome
    obtain ⟨x, hx⟩ := Option.ne_none_iff_exists'.mp hsome
    obtain ⟨y, hy⟩ := Option.ne_none_iff_exists'.mp hsome'
    exact hno ⟨x, y, intItem?_eq_some.mp hx, intItem?_eq_some.mp hy⟩
  · have hf : fitsW (sintW x * sintW y) = false := by
      rw [← Bool.not_eq_true, fitsW_iff]
      unfold sintW
      omega
    exact execMult_of_not_fits hl hx hy d hf

/-- Settles O11: RET case by case; after a jump the engine runs on, so the next iteration meets the target. -/
theorem retFollowsItsRule : Obligations.RetFollowsItsRule := by
  refine ⟨Laws.Header.ret, fun d _ _ => execRet_of_int d, fun d _ => execRet_of_no_item d,
    fun d _ hl he hno => execRet_of_not_int d hl he (intItem?_eq_none.mpr hno), fun d s t v hr hl hc h => ?_⟩
  have ht : execRet d s = .next t := h
  rw [execRet_of_int d hl hc] at ht
  cases ht
  exact ⟨step_of_pc_past_end (s := (popped s).setPc v) hr, step_of_pc_neg (s := (popped s).setPc v) hr⟩

/-- Settles O13: the cells without an opcode, the failing step, and the fields of the recorded word. -/
theorem unrecognisedCellsFail : Obligations.UnrecognisedCellsFail :=
  ⟨fun _ => decode_error_iff, fun _ _ hr ha hl ⟨_, he⟩ => step_of_decode_error hr ha hl he,
    fun _ _ => ⟨tagOf_packFields .., opcOf_packFields ..⟩, fun _ => ⟨tagOf_packFields .., opcOf_packFields ..⟩,
    rfl, rfl⟩

end Sys2Proof.Proofs
end

section
/-! SUPPORT and SETTLED. Errors: which error each instruction raises and the state it leaves (R201, R213), the ways in which a
RUNNING step can end the run, and taking an error (R212). -/

namespace Sys2Proof.Machine

/-- `Raises s i k u`: run in the state `s`, the instruction `i` raises an error of kind `k` and leaves the state `u` (R201).
`exec_ends_cases` and `exec_of_raises` tie it to `exec`. -/
inductive Raises (s : State) : Instr → ErrKind → State → Prop
  /-- R161: `sp` is 0, or the cell below it is occupied. -/
  | pushNoRoom (d : Datum) (h : s.sp = 0 ∨ s.sp ≤ s.size ∧ s.cellAt (s.sp - 1) ≠ .empty) :
      Raises s (.push d) .stackOverflow s
  /-- R162: nothing to pop. -/
  | printNoItem (d : Datum) (h : s.sp = s.size ∨ s.sp < s.size ∧ s.cellAt s.sp = .empty) :
      Raises s (.print d) .emptyStack s
  /-- R163: the operand is no integer. -/
  | callNotInt (d : Datum) (h : d.kind ≠ .int) : Raises s (.call d) .invalidAddressType s
  /-- R164: nothing to pop. -/
  | multNoItem (d : Datum) (h : s.sp = s.size ∨ s.sp < s.size ∧ s.cellAt s.sp = .empty) :
      Raises s (.mult d) .emptyStack s
  /-- R164: the first pop is done, and nothing is left to pop. -/
  | multOneItem (d : Datum) (hl : s.sp < s.size) (hc : s.cellAt s.sp ≠ .empty)
      (h : s.sp + 1 = s.size ∨ s.cellAt (s.sp + 1) = .empty) :
      Raises s (.mult d) .emptyStack (popped s)
  /-- R164: two items are popped, and not both are integers. -/
  | multNotInts (d : Datum) (hl : s.sp + 1 < s.size) (hc : s.cellAt s.sp ≠ .empty)
      (hc' : s.cellAt (s.sp + 1) ≠ .empty)
      (h : intItem? (s.cellAt s.sp) = none ∨ intItem? (s.cellAt (s.sp + 1)) = none) :
      Raises s (.mult d) .invalidMultArgType (popped (popped s))
  /-- R164: two integers are popped, and their product does not fit. -/
  | multNotFits (d : Datum) {x y : Word} (hl : s.sp + 1 < s.size) (hx : s.cellAt s.sp = .value (Datum.int x))
      (hy : s.cellAt (s.sp + 1) = .value (Datum.int y)) (h : fitsW (sintW x * sintW y) = false) :
      Raises s (.mult d) .valueOverflow (popped (popped s))
  /-- R165: nothing to pop. -/
  | retNoItem (d : Datum) (h : s.sp = s.size ∨ s.sp < s.size ∧ s.cellAt s.sp = .empty) :
      Raises s (.ret d) .emptyStack s
  /-- R165: the popped item is no integer. -/
  | retNotInt (d : Datum) (hl : s.sp < s.size) (hc : s.cellAt s.sp ≠ .empty)
      (h : intItem? (s.cellAt s.sp) = none) :
      Raises s (.ret d) .invalidAddressType (popped s)

variable {s t u : State} {i : Instr} {k : ErrKind} {info : CellWord}

/-- An instruction that raises an error takes it, with ERR_INFO 0, in the state it left. -/
theorem exec_of_raises (h : Raises s i k u) : exec i s = .next (u.fail k 0) := by
  cases h with
  | pushNoRoom d h => exact execPush_of_no_room h
  | printNoItem d h => exact execPrint_of_no_item d h
  | callNotInt d h => exact execCall_of_not_int h
  | multNoItem d h => exact execMult_of_no_item d h
  | multOneItem d hl hc h => exact execMult_of_one_item d hl hc h
  | multNotInts d hl hc hc' h => exact execMult_of_not_ints d hl hc hc' h
  | multNotFits d hl hx hy h => exact execMult_of_not_fits hl hx hy d h
  | retNoItem d h => exact execRet_of_no_item d h
  | retNotInt d hl hc h => exact execRet_of_not_int d hl hc h

/-- An instruction that ends the run is a STOP, or raises an error. -/
theorem exec_ends_cases (hr : s.engine = .running) (h : exec i s = .next t) (he : t.engine = .ready) :
    t = s.finish ⟨.stopped, .none, 0⟩ ∨ ∃ k u, Raises s i k u ∧ t = u.fail k 0 := by
  have hended : t.engine ≠ s.engine := by simp [hr, he]
  cases i with
  | push d =>
    obtain ⟨hc, rfl⟩ | ⟨-, rfl⟩ := execPush_cases (d := d) h
    · exact .inr ⟨_, _, .pushNoRoom d hc, rfl⟩
    · exact absurd rfl hended
  | print d =>
    obtain ⟨hc, rfl⟩ | ⟨-, rfl⟩ := execPrint_cases (d := d) h
    · exact .inr ⟨_, _, .printNoItem d hc, rfl⟩
    · exact absurd rfl hended
  | call d =>
    obtain ⟨hk, rfl⟩ | ⟨v, -, rfl⟩ := execCall_cases (d := d) h
    · exact .inr ⟨_, _, .callNotInt d hk, rfl⟩
    · exact absurd rfl hended
  | mult d =>
    obtain ⟨hc, rfl⟩ | ⟨⟨hl, hc⟩, ⟨h2, rfl⟩ | ⟨⟨hl2, hc2⟩, ⟨hi, rfl⟩ | ⟨x, y, hx, hy, ⟨hf, rfl⟩ | ⟨-, rfl⟩⟩⟩⟩ :=
      execMult_cases (d := d) h
    · exact .inr ⟨_, _, .multNoItem d hc, rfl⟩
    · exact .inr ⟨_, _, .multOneItem d hl hc (h2.imp_right And.right), rfl⟩
    · exact .inr ⟨_, _, .multNotInts d hl2 hc hc2 hi, rfl⟩
    · exact .inr ⟨_, _, .multNotFits d hl2 (intItem?_eq_some.mp hx) (intItem?_eq_some.mp hy) hf, rfl⟩
    · exact absurd rfl hended
  | ret d =>
    obtain ⟨hc, rfl⟩ | ⟨⟨hl, hc⟩, ⟨hi, rfl⟩ | ⟨v, -, rfl⟩⟩ := execRet_cases (d := d) h
    · exact .inr ⟨_, _, .retNoItem d hc, rfl⟩
    · exact .inr ⟨_, _, .retNotInt d hl hc hi, rfl⟩
    · exact absurd rfl hended
  | stop d => exact .inl (execStop_cases (d := d) h)

/-- A RUNNING step that ends the run ends it without an error, or fails at its fetch, at its decode, or in the instruction
that `pc` addresses. -/
theorem run_ends_cases (hr : s.engine = .running) (h : step s = .next t) (he : t.engine = .ready) :
    (∃ o, o ≠ .failed ∧ t = s.finish ⟨o, .none, 0⟩) ∨
    (sintW s.pc < 0 ∧ t = s.fail .invalidAddressPointer 0) ∨
    (∃ r, decode (s.cellAt (sintW s.pc).toNat) = .error r ∧
      t = s.fail .unknownInstruction (s.cellAt (sintW s.pc).toNat).toWord) ∨
    ∃ i k u, (0 ≤ sintW s.pc ∧ sintW s.pc < s.size) ∧ decode (s.cellAt (sintW s.pc).toNat) = .ok i ∧
      Raises s i k u ∧ t = u.fail k 0 := by
  rw [step_of_running hr] at h
  obtain ⟨-, rfl⟩ | hfetch | ⟨a, ha, hl, hdecode | ⟨i, hi, hx⟩⟩ := iterate_cases h
  · exact .inl ⟨.ended, by decide, rfl⟩
  · exact .inr (.inl hfetch)
  · rw [ha, Int.toNat_natCast]
    exact .inr (.inr (.inl hdecode))
  · obtain rfl | ⟨k, u, hraise, rfl⟩ := exec_ends_cases hr hx he
    · exact .inl ⟨.stopped, by decide, rfl⟩
    · rw [ha, Int.toNat_natCast]
      exact .inr (.inr (.inr ⟨i, k, u, by omega, hi, hraise, rfl⟩))

/-- A run that ends with a kind that neither the fetch nor the decode raises failed in the instruction that `pc` addresses. -/
theorem raises_of_run_ends (hr : s.engine = .running) (h : step s = .next t) (he : t.engine = .ready)
    (hk : t.resp.errKind = k) (hnone : k ≠ .none) (hfetch : k ≠ .invalidAddressPointer)
    (hdecode : k ≠ .unknownInstruction) :
    ∃ i u, (0 ≤ sintW s.pc ∧ sintW s.pc < s.size) ∧ decode (s.cellAt (sintW s.pc).toNat) = .ok i ∧
      Raises s i k u ∧ t = u.fail k 0 := by
  obtain ⟨o, -, rfl⟩ | ⟨-, rfl⟩ | ⟨r, -, rfl⟩ | ⟨i, k', u, hpc, hi, hraise, rfl⟩ := run_ends_cases hr h he
  · exact absurd hk.symm hnone
  · exact absurd hk.symm hfetch
  · exact absurd hk.symm hdecode
  · cases hk
    exact ⟨i, u, hpc, hi, hraise, rfl⟩

/-- An error raised by the fetch is taken in the state the fetch left (R144, R212). -/
theorem step_of_fetch_raised (hr : s.engine = .running) (hp : pastEnd s = false) (hf : fetch s = .raised k info u) :
    step s = .next (u.fail k info) := by
  rw [step_of_running hr]
  simp [iterate, hp, hf]

end Sys2Proof.Machine

namespace Sys2Proof.Proofs

open Sys2Proof.Machine

/-- Settles O27: the codes, then each way a run or a command fails; an instruction's error by the constructor of `Raises`. -/
theorem errorKindsAndTheirSources : Obligations.ErrorKindsAndTheirSources := by
  refine ⟨rfl, fun s t hr h he hf => ?_, fun c s t h hexec hf => ?_⟩
  · obtain ⟨o, ho, rfl⟩ | ⟨hn, rfl⟩ | ⟨r, hd, rfl⟩ | ⟨i, k, u, -, hd, hraise, rfl⟩ := run_ends_cases hr h he
    · exact absurd hf ho
    · exact ⟨rfl, hn⟩
    · exact ⟨rfl, r, hd⟩
    · cases hraise with
      | pushNoRoom d => exact ⟨rfl, d, hd⟩
      | printNoItem d => exact ⟨rfl, d, .inl hd⟩
      | callNotInt d => exact ⟨rfl, d, .inl hd⟩
      | multNoItem d => exact ⟨rfl, d, .inr (.inl hd)⟩
      | multOneItem d => exact ⟨rfl, d, .inr (.inl hd)⟩
      | multNotInts d => exact ⟨rfl, d, hd⟩
      | multNotFits d => exact ⟨rfl, d, hd⟩
      | retNoItem d => exact ⟨rfl, d, .inr (.inr hd)⟩
      | retNotInt d => exact ⟨rfl, d, .inr hd⟩
  · obtain ⟨-, ⟨z, n, -, -, rfl⟩ | ⟨d, rfl, hset⟩ | ⟨op, d, rfl, hins⟩ | ⟨rfl, -⟩⟩ := issue_cases h
    · cases hf
    · obtain ⟨-, rfl⟩ | ⟨v, -, ⟨-, rfl⟩ | ⟨a, -, rfl⟩⟩ := hset
      · exact ⟨rfl, d, rfl⟩
      · exact ⟨rfl, .inl ⟨d, rfl⟩⟩
      · cases hf
    · obtain ⟨-, rfl⟩ | ⟨-, rfl⟩ | ⟨a, -, rfl⟩ := hins
      · exact ⟨rfl, op, d, rfl⟩
      · exact ⟨rfl, .inr ⟨op, d, rfl⟩⟩
      · cases hf
    · exact absurd rfl hexec

/-- Settles O28: only PUSH raises StackOverflow, and a PUSH without room answers `State.fail`; `sp` is in 0..N. -/
theorem stackOverflowOnlyFromPush : Obligations.StackOverflowOnlyFromPush := by
  intro s t ⟨_, _, _, _, hsp, _⟩ hr h
  refine ⟨⟨fun ⟨he, hk⟩ => ?_, fun ⟨h0, hl, ⟨d, hd⟩, hroom⟩ => ?_⟩, fun he hk => ?_⟩
  · obtain ⟨i, u, ⟨h0, hl⟩, hi, ⟨d, hroom⟩, -⟩ :=
      raises_of_run_ends hr h he hk (by decide) (by decide) (by decide)
    exact ⟨h0, hl, ⟨d, hi⟩, hroom.imp_right And.right⟩
  · have hraise : Raises s (.push d) .stackOverflow s := .pushNoRoom d (hroom.imp_right (.intro hsp))
    rw [step_of_decode_ok hr (Int.toNat_of_nonneg h0).symm (by omega) hd, exec_of_raises hraise] at h
    cases h
    exact ⟨rfl, rfl⟩
  · obtain ⟨i, u, -, -, ⟨d, -⟩, rfl⟩ := raises_of_run_ends hr h he hk (by decide) (by decide) (by decide)
    rfl

/-- Settles O29: PRINT, MULT and RET raise EmptyStack, in the state they began in or, at the second pop of MULT, in the one
the first pop left. -/
theorem emptyStackOnlyFromPop : Obligations.EmptyStackOnlyFromPop := by
  intro s t _ hr h he hk
  obtain ⟨i, u, -, hd, hraise, rfl⟩ := raises_of_run_ends hr h he hk (by decide) (by decide) (by decide)
  cases hraise with
  | printNoItem d hc => exact .inl ⟨⟨d, .inl hd⟩, hc.imp_right And.right, rfl⟩
  | multNoItem d hc => exact .inl ⟨⟨d, .inr (.inl hd)⟩, hc.imp_right And.right, rfl⟩
  | retNoItem d hc => exact .inl ⟨⟨d, .inr (.inr hd)⟩, hc.imp_right And.right, rfl⟩
  | multOneItem d hl hc hend => exact .inr ⟨⟨d, hd⟩, hl, hc, hend, rfl⟩

/-- Settles O25: the laws of `Done.andThen` and `Done.close` for a raised error, alone and in sequence, and the fetch. -/
theorem raiseWritesOnlyEngineAndResp : Obligations.RaiseWritesOnlyEngineAndResp := by
  refine ⟨fun _ _ => Done.raised_andThen, Done.close_raised, fun α k info s u op f hop => ?_,
    fun _ _ _ _ => step_of_fetch_raised⟩
  rw [hop, Done.raised_andThen]
  exact Done.close_raised k info u

end Sys2Proof.Proofs
end

section
/-! SUPPORT and SETTLED. The raw-word decoder and the encoder are inverse to each other (30_encoding.md R70 to R77): a cell
against its word, an instruction against the cell that holds it, and the header against the opcode. -/

namespace Sys2Proof

variable {w : CellWord} {c c' : Cell} {i : Instr} {opc : Token} {d : Datum}

/-! ### Instructions and the cells that hold them (R76, R77) -/

/-- The decoder recognises a cell exactly when it is the cell of the instruction it answers. -/
theorem decode_eq_ok_iff : decode c = .ok i ↔ c = i.toCell := by
  constructor
  · intro h
    cases c with
    | empty => cases h
    | value d => cases h
    | instr opc d =>
      obtain rfl | rfl | rfl | rfl | rfl | rfl | hopc := token_cases opc
      case inr.inr.inr.inr.inr.inr => rw [decode_of_unrecognised hopc] at h; cases h
      all_goals cases h; rfl
  · rintro rfl
    cases i <;> rfl

/-- A raw word decodes to an instruction exactly when it is accepted as the cell that holds it. -/
theorem decodeWord_eq_ok_iff : decodeWord w = .ok i ↔ cellOfWord w = .ok i.toCell := by
  unfold decodeWord
  split
  case h_1 c hc => rw [hc, decode_eq_ok_iff, Except.ok.injEq]
  case h_2 r hr => simp [hr]

/-! ### Cells and their words (R72 to R75) -/

/-- Words that agree hold the same four fields. -/
theorem packFields_inj {t t' k k' : BitVec 2} {o o' : Token} {x x' : Word}
    (h : packFields t o k x = packFields t' o' k' x') : t = t' ∧ o = o' ∧ k = k' ∧ x = x' :=
  ⟨by simpa using congrArg tagOf h, by simpa using congrArg opcOf h, by simpa using congrArg kindBitsOf h,
    by simpa using congrArg dataOf h⟩

/-- The KIND and DATA fields of a datum determine it. -/
theorem Datum.eq_of_fields {d d' : Datum} (hk : d.kind.bits = d'.kind.bits) (hx : d.data = d'.data) : d = d' := by
  have hkind : d.kind = d'.kind := by simpa using congrArg kindOfBits hk
  cases d
  cases d'
  cases hkind
  cases hx
  rfl

/-- Different cells, canonical or not, have different words: TAG tells the three forms apart, and no field is dropped. -/
theorem Cell.toWord_injective : Function.Injective Cell.toWord := by
  have hzero : tagOf 0#76 = 0b00#2 := by decide
  intro c c' h
  have htag := congrArg tagOf h
  cases c <;> cases c'
  case empty.empty => rfl
  case instr.instr opc d opc' d' =>
    obtain ⟨-, rfl, hk, hx⟩ := packFields_inj h
    rw [Datum.eq_of_fields hk hx]
  case value.value d d' =>
    obtain ⟨-, -, hk, hx⟩ := packFields_inj h
    rw [Datum.eq_of_fields hk hx]
  all_goals simp [Cell.toWord, hzero] at htag

/-- The word of a canonical cell is read back as that cell. -/
theorem cellOfWord_toWord (hc : c.canonical = true) : cellOfWord c.toWord = .ok c := by
  cases c with
  | empty => rfl
  | instr opc d =>
    have habsent : ¬ (d.kind = .absent ∧ d.data ≠ 0#64) := by
      simpa [Cell.canonical, Datum.canonical, imp_iff_not_or] using hc
    simp [Cell.toWord, cellOfWord, habsent]
  | value d =>
    have hk : d.kind ≠ .absent := by simpa [Cell.canonical] using hc
    simp [Cell.toWord, cellOfWord, hk]

/-- A raw word that is accepted is zero and EMPTY, or it has the TAG of an instruction or of a value, a KIND that is not
reserved and, where its KIND is ABSENT, DATA 0. -/
theorem cellOfWord_cases (h : cellOfWord w = .ok c) :
    (w = 0#76 ∧ c = .empty) ∨
    ∃ k, kindOfBits (kindBitsOf w) = some k ∧ ¬ (k = .absent ∧ dataOf w ≠ 0#64) ∧
      ((tagOf w = 0b01#2 ∧ c = .instr (opcOf w) ⟨k, dataOf w⟩) ∨
        (tagOf w = 0b10#2 ∧ opcOf w = 0#8 ∧ k ≠ .absent ∧ c = .value ⟨k, dataOf w⟩)) := by
  unfold cellOfWord at h
  split at h
  · split at h <;> cases h
    exact .inl ⟨‹_›, rfl⟩
  · split at h
    · cases h
    · split at h
      · cases h
      · rename_i hempty hreserved k hk
        refine .inr ⟨k, hk, ?_⟩
        split at h
        · cases h
        · refine ⟨‹_›, ?_⟩
          split at h
          · cases h
            exact .inl ⟨‹_›, rfl⟩
          · split at h
            · cases h
            · split at h <;> cases h
              rename_i hinstr hopc habsent
              have htag := bitVec2_cases (tagOf w)
              exact .inr ⟨by tauto, not_not.mp hopc, habsent, rfl⟩

/-- An accepted raw word is the word of the cell it is read as, which is canonical. -/
theorem toWord_of_cellOfWord (h : cellOfWord w = .ok c) : c.toWord = w ∧ c.canonical = true := by
  have hfields := packFields_fields w
  obtain ⟨rfl, rfl⟩ | ⟨k, hk, habsent, ⟨ht, rfl⟩ | ⟨ht, ho, hk', rfl⟩⟩ := cellOfWord_cases h
  · exact ⟨rfl, rfl⟩
  · rw [ht, ← bits_of_kindOfBits hk] at hfields
    exact ⟨hfields, by simpa [Cell.canonical, Datum.canonical, imp_iff_not_or] using habsent⟩
  · rw [ht, ho, ← bits_of_kindOfBits hk] at hfields
    exact ⟨hfields, by simpa [Cell.canonical] using hk'⟩

/-- The word of a cell is accepted as that cell or not at all. -/
theorem eq_of_cellOfWord_toWord (h : cellOfWord c.toWord = .ok c') : c' = c :=
  Cell.toWord_injective (toWord_of_cellOfWord h).1

/-! ### The header (R77) -/

/-- The mask of the opcode table clears KIND and keeps TAG and OPC. -/
theorem header_mask (t : BitVec 2) (o : Token) (k : BitVec 2) :
    (t ++ o ++ k : BitVec 12) &&& 0xFFC#12 = t ++ o ++ 0#2 := by
  have hmask : 0xFFC#12 = (BitVec.allOnes 2 ++ BitVec.allOnes 8 ++ 0#2 : BitVec 12) := by decide
  rw [hmask, BitVec.and_append, BitVec.and_append, BitVec.and_allOnes, BitVec.and_allOnes, BitVec.and_zero]

/-- Headers that agree hold the same TAG and OPC. -/
theorem header_inj {t t' k k' : BitVec 2} {o o' : Token} (h : (t ++ o ++ k : BitVec 12) = t' ++ o' ++ k') :
    t = t' ∧ o = o' := by
  have hword : packFields t o k 0#64 = packFields t' o' k' 0#64 := congrArg (fun hdr : BitVec 12 => hdr ++ 0#64) h
  obtain ⟨ht, ho, -, -⟩ := packFields_inj hword
  exact ⟨ht, ho⟩

open Laws.Header (hdrOf_packFields)

/-- The header under the mask is the pattern of a token exactly for the INSTR cells with that token. -/
theorem header_eq_iff : hdrOf c.toWord &&& 0xFFC#12 = (1#2 ++ opc ++ 0#2 : BitVec 12) ↔ ∃ d, c = .instr opc d := by
  constructor
  · intro h
    cases c with
    | empty => exact absurd (header_inj (t := 0#2) (o := 0#8) (k := 0#2) h).1 (by decide)
    | instr o d =>
      rw [Cell.toWord, hdrOf_packFields, header_mask] at h
      obtain ⟨-, rfl⟩ := header_inj h
      exact ⟨d, rfl⟩
    | value d =>
      rw [Cell.toWord, hdrOf_packFields, header_mask] at h
      exact absurd (header_inj h).1 (by decide)
  · rintro ⟨d, rfl⟩
    rw [Cell.toWord, hdrOf_packFields, header_mask]

/-- An accepted word decodes to the instruction of one opcode, with some operand, exactly when its header has the
pattern of that opcode. -/
theorem decodeWord_iff_header {mk : Datum → Instr} (hmk : ∀ d, (mk d).toCell = .instr opc d)
    (h : cellOfWord w = .ok c) :
    (∃ d, decodeWord w = .ok (mk d)) ↔ hdrOf w &&& 0xFFC#12 = (1#2 ++ opc ++ 0#2 : BitVec 12) := by
  rw [← (toWord_of_cellOfWord h).1, header_eq_iff, (toWord_of_cellOfWord h).1]
  refine exists_congr fun d => ?_
  rw [decodeWord_eq_ok_iff, h, hmk, Except.ok.injEq]

/-- The operand of a decoded word is its KIND and DATA. -/
theorem operand_of_decodeWord (h : decodeWord w = .ok i) :
    i.operand.kind.bits = kindBitsOf w ∧ i.operand.data = dataOf w := by
  have hword : i.toCell.toWord = w := (toWord_of_cellOfWord (decodeWord_eq_ok_iff.mp h)).1
  rw [← hword]
  exact ⟨(kindBitsOf_packFields ..).symm, (dataOf_packFields ..).symm⟩

end Sys2Proof

namespace Sys2Proof.Proofs

/-- Settles O1: the cell of a well-formed instruction is canonical, so its word is read back as that cell. -/
theorem encodeDecodeRoundTrip : Obligations.EncodeDecodeRoundTrip :=
  fun i hi => decodeWord_eq_ok_iff.mpr (cellOfWord_toWord (c := i.toCell) hi)

/-- Settles O2: the word that decodes is the word of the instruction's cell. -/
theorem decodedWordsAreEncodings : Obligations.DecodedWordsAreEncodings :=
  fun _ i h => toWord_of_cellOfWord (c := i.toCell) (decodeWord_eq_ok_iff.mp h)

/-- Settles O3: reading back the word of a canonical cell, and the word of an accepted cell. -/
theorem canonicalCellsMatchTheirWords : Obligations.CanonicalCellsMatchTheirWords :=
  ⟨fun _ => cellOfWord_toWord, fun _ _ => toWord_of_cellOfWord⟩

/-- Settles O5: each pattern is TAG, the opcode's token and a cleared KIND; the operand is read off the encoding. -/
theorem headerSelectsOpcode : Obligations.HeaderSelectsOpcode := by
  rintro w ⟨c, h⟩
  exact ⟨decodeWord_iff_header (opc := 0x01#8) (fun _ => rfl) h,
    decodeWord_iff_header (opc := 0x02#8) (fun _ => rfl) h,
    decodeWord_iff_header (opc := 0x03#8) (fun _ => rfl) h,
    decodeWord_iff_header (opc := 0x04#8) (fun _ => rfl) h,
    decodeWord_iff_header (opc := 0x05#8) (fun _ => rfl) h,
    decodeWord_iff_header (opc := 0x06#8) (fun _ => rfl) h,
    fun _ => operand_of_decodeWord⟩

/-- Settles O6: nine words that the decoder reads by computation. -/
theorem listedWordsDecode : Obligations.ListedWordsDecode := by
  unfold Obligations.ListedWordsDecode
  decide

end Sys2Proof.Proofs
end

section
/-! SUPPORT and SETTLED. Everything an instruction can do, completed (R161 to R166) or ended by an error (R201), and what holds
of every step because of it: how a run ends (R147), `pc` at an error (R214), the cells below `sp`, `sp` itself and the
memory size, and the independence from commands and events. -/

namespace Sys2Proof.Machine

/-- `Completes s i t`: run in the state `s`, the instruction `i` raises no error and leaves the state `t` (R161 to R166).
`exec_cases` and `exec_of_completes` tie it to `exec`. -/
inductive Completes (s : State) : Instr → State → Prop
  /-- R161: there is room below `sp`. -/
  | push (d : Datum) (h0 : 0 < s.sp) (hl : s.sp ≤ s.size) (he : s.cellAt (s.sp - 1) = .empty) :
      Completes s (.push d) (pushed d s)
  /-- R162: the item is popped and sent. -/
  | print (d : Datum) (hl : s.sp < s.size) (hc : s.cellAt s.sp ≠ .empty) :
      Completes s (.print d) (((popped s).emit (s.cellAt s.sp)).setPc (s.pc + 1))
  /-- R163: the jump to an integer. -/
  | call (v : Word) : Completes s (.call (Datum.int v)) (s.setPc v)
  /-- R164: two integers whose product fits. -/
  | mult (d : Datum) {x y : Word} (hl : s.sp + 1 < s.size) (hx : s.cellAt s.sp = .value (Datum.int x))
      (hy : s.cellAt (s.sp + 1) = .value (Datum.int y)) (hf : fitsW (sintW x * sintW y) = true) :
      Completes s (.mult d) (pushed (Datum.int (encW (sintW x * sintW y))) (popped (popped s)))
  /-- R165: the jump to a popped integer. -/
  | ret (d : Datum) {v : Word} (hl : s.sp < s.size) (hc : s.cellAt s.sp = .value (Datum.int v)) :
      Completes s (.ret d) ((popped s).setPc v)
  /-- R166: the run ends. -/
  | stop (d : Datum) : Completes s (.stop d) (s.finish ⟨.stopped, .none, 0⟩)

variable {s t u : State} {i : Instr} {k : ErrKind} {c : Command} {a : Nat}

theorem exec_of_completes (h : Completes s i t) : exec i s = .next t := by
  cases h with
  | push d h0 hl he => exact execPush_of_room h0 hl he
  | print d hl hc => exact execPrint_of_item d hl hc
  | call v => rfl
  | mult d hl hx hy hf => exact execMult_of_fits hl hx hy d hf
  | ret d hl hc => exact execRet_of_int d hl hc
  | stop d => rfl

/-- An instruction that answers a next state completes, or raises an error and takes it. -/
theorem exec_cases (h : exec i s = .next t) : Completes s i t ∨ ∃ k u, Raises s i k u ∧ t = u.fail k 0 := by
  cases i with
  | push d =>
    obtain ⟨hc, rfl⟩ | ⟨⟨h0, hl, he⟩, rfl⟩ := execPush_cases (d := d) h
    · exact .inr ⟨_, _, .pushNoRoom d hc, rfl⟩
    · exact .inl (.push d h0 hl he)
  | print d =>
    obtain ⟨hc, rfl⟩ | ⟨⟨hl, hc⟩, rfl⟩ := execPrint_cases (d := d) h
    · exact .inr ⟨_, _, .printNoItem d hc, rfl⟩
    · exact .inl (.print d hl hc)
  | call d =>
    obtain ⟨hk, rfl⟩ | ⟨v, rfl, rfl⟩ := execCall_cases (d := d) h
    · exact .inr ⟨_, _, .callNotInt d hk, rfl⟩
    · exact .inl (.call v)
  | mult d =>
    obtain ⟨hc, rfl⟩ | ⟨⟨hl, hc⟩, ⟨h2, rfl⟩ | ⟨⟨hl2, hc2⟩, ⟨hi, rfl⟩ | ⟨x, y, hx, hy, ⟨hf, rfl⟩ | ⟨hf, rfl⟩⟩⟩⟩ :=
      execMult_cases (d := d) h
    · exact .inr ⟨_, _, .multNoItem d hc, rfl⟩
    · exact .inr ⟨_, _, .multOneItem d hl hc (h2.imp_right And.right), rfl⟩
    · exact .inr ⟨_, _, .multNotInts d hl2 hc hc2 hi, rfl⟩
    · exact .inr ⟨_, _, .multNotFits d hl2 (intItem?_eq_some.mp hx) (intItem?_eq_some.mp hy) hf, rfl⟩
    · exact .inl (.mult d hl2 (intItem?_eq_some.mp hx) (intItem?_eq_some.mp hy) hf)
  | ret d =>
    obtain ⟨hc, rfl⟩ | ⟨⟨hl, hc⟩, ⟨hi, rfl⟩ | ⟨v, hv, rfl⟩⟩ := execRet_cases (d := d) h
    · exact .inr ⟨_, _, .retNoItem d hc, rfl⟩
    · exact .inr ⟨_, _, .retNotInt d hl hc hi, rfl⟩
    · exact .inl (.ret d hl (intItem?_eq_some.mp hv))
  | stop d =>
    obtain rfl := execStop_cases (d := d) h
    exact .inl (.stop d)

/-- `Pops s u`: some pops in a row, each of an existing cell, lead from `s` to `u`. An instruction that raises an error has done
nothing else (`Raises.pops`, R239). -/
inductive Pops (s : State) : State → Prop
  | refl : Pops s s
  | pop {u : State} (h : Pops s u) (hl : u.sp < u.size) : Pops s (popped u)

theorem Raises.pops (h : Raises s i k u) : Pops s u := by
  have one (hl : s.sp < s.size) : Pops s (popped s) := .pop .refl hl
  have two (hl : s.sp + 1 < s.size) : Pops s (popped (popped s)) := .pop (one (by omega)) hl
  cases h with
  | pushNoRoom => exact .refl
  | printNoItem => exact .refl
  | callNotInt => exact .refl
  | multNoItem => exact .refl
  | multOneItem d hl => exact one hl
  | multNotInts d hl => exact two hl
  | multNotFits d hl => exact two hl
  | retNoItem => exact .refl
  | retNotInt d hl => exact one hl

/-- Every error has a kind (R201). -/
theorem Raises.kind_ne_none (h : Raises s i k u) : k ≠ .none := by
  cases h <;> exact ErrKind.noConfusion

/-- A RUNNING step ends the run at the loop test, takes an error after pops alone, or completes the instruction that `pc`
addresses. -/
theorem run_step_cases (hr : s.engine = .running) (h : step s = .next t) :
    ((s.size : Int) ≤ sintW s.pc ∧ t = s.finish ⟨.ended, .none, 0⟩) ∨
    (∃ k info u, Pops s u ∧ k ≠ .none ∧ (k = .unknownInstruction ∨ info = 0) ∧ t = u.fail k info) ∨
    ∃ (a : Nat) (i : Instr), (sintW s.pc = a ∧ a < s.size) ∧ decode (s.cellAt a) = .ok i ∧ Completes s i t := by
  rw [step_of_running hr] at h
  obtain hend | ⟨-, rfl⟩ | ⟨a, ha, hl, ⟨r, -, rfl⟩ | ⟨i, hi, hx⟩⟩ := iterate_cases h
  · exact .inl hend
  · exact .inr (.inl ⟨_, _, s, .refl, by decide, .inr rfl, rfl⟩)
  · exact .inr (.inl ⟨_, _, s, .refl, by decide, .inl rfl, rfl⟩)
  · obtain hdone | ⟨k, u, hraise, rfl⟩ := exec_cases hx
    · exact .inr (.inr ⟨a, i, ⟨ha, hl⟩, hi, hdone⟩)
    · exact .inr (.inl ⟨k, 0, u, hraise.pops, hraise.kind_ne_none, .inr rfl, rfl⟩)

/-! ### What pops and completed instructions keep -/

theorem Pops.pc_eq (h : Pops s u) : u.pc = s.pc := by
  induction h with
  | refl => rfl
  | pop _ _ ih => exact ih

theorem Pops.size_eq (h : Pops s u) : u.size = s.size := by
  induction h with
  | refl => rfl
  | pop _ _ ih => exact ih

theorem Pops.commands_eq (h : Pops s u) : u.commands = s.commands := by
  induction h with
  | refl => rfl
  | pop _ _ ih => exact ih

theorem Pops.sp_le (h : Pops s u) (hs : s.sp ≤ s.size) : u.sp ≤ u.size := by
  induction h with
  | refl => exact hs
  | pop _ hl _ => exact hl

/-- Pops go up from `sp` and reach no cell below it. -/
theorem Pops.cellAt_below (h : Pops s u) (ha : a < s.sp) : a < u.sp ∧ u.cellAt a = s.cellAt a := by
  induction h with
  | refl => exact ⟨ha, rfl⟩
  | pop _ _ ih =>
    obtain ⟨hlt, hcell⟩ := ih
    refine ⟨Nat.lt_succ_of_lt hlt, ?_⟩
    rw [cellAt_popped, if_neg (by omega), hcell]

theorem Completes.size_eq (h : Completes s i t) : t.size = s.size := by
  cases h <;> rfl

theorem Completes.commands_eq (h : Completes s i t) : t.commands = s.commands := by
  cases h <;> rfl

theorem Completes.sp_le (h : Completes s i t) (hs : s.sp ≤ s.size) : t.sp ≤ t.size := by
  cases h with
  | push d h0 hl he => exact Nat.le_trans (Nat.sub_le ..) hl
  | print d hl hc => exact hl
  | call v => exact hs
  | mult d hl hx hy hf => exact Nat.le_of_lt hl
  | ret d hl hc => exact hl
  | stop d => exact hs

/-- The run goes on with RESP untouched, or the instruction is a STOP. -/
theorem Completes.engine_cases (h : Completes s i t) :
    (t.engine = s.engine ∧ t.resp = s.resp) ∨ (∃ d, i = .stop d) ∧ t = s.finish ⟨.stopped, .none, 0⟩ := by
  cases h with
  | stop d => exact .inr ⟨⟨d, rfl⟩, rfl⟩
  | _ => exact .inl ⟨rfl, rfl⟩

/-- PUSH stores to an EMPTY cell, and MULT above `sp`. -/
theorem Completes.cellAt_below (h : Completes s i t) (ha : a < s.sp) (hne : s.cellAt a ≠ .empty) :
    t.cellAt a = s.cellAt a := by
  have hpopped : (popped s).cellAt a = s.cellAt a := by rw [cellAt_popped, if_neg (by omega)]
  cases h with
  | push d h0 hl he =>
    have htarget : a ≠ s.sp - 1 := fun h => hne (h ▸ he)
    rw [cellAt_pushed, if_neg htarget]
  | print d hl hc => exact hpopped
  | call v => rfl
  | mult d hl hx hy hf =>
    rw [cellAt_pushed, sp_popped, sp_popped, if_neg (by omega), cellAt_popped, sp_popped, if_neg (by omega), hpopped]
  | ret d hl hc => exact hpopped
  | stop d => rfl

/-! ### Commands: `sp`, the size and `pc` -/

theorem resetSize?_eq_some {z : SizeArg} {n : Nat} :
    resetSize? z = some n ↔ z = .int n ∧ 1 ≤ n ∧ n ≤ Config.maxSize := by
  cases z with
  | other => simp [resetSize?]
  | int v =>
    simp only [resetSize?, SizeArg.int.injEq]
    split
    · simp only [Option.some.injEq]
      omega
    · simp only [reduceCtorEq, false_iff]
      omega

/-- RESET sets the size and `sp` to its argument; no other command writes either. -/
theorem issue_size_sp (h : issue c s = .next t) :
    (∃ n : Nat, c = .reset (.int n) ∧ t.size = n ∧ t.sp = n) ∨
    ((∀ z, c ≠ .reset z) ∧ t.size = s.size ∧ t.sp = s.sp) := by
  obtain ⟨-, ⟨z, n, rfl, hz, rfl⟩ | ⟨d, rfl, hset⟩ | ⟨op, d, rfl, hins⟩ | ⟨rfl, rfl⟩⟩ := issue_cases h
  · obtain ⟨rfl, -⟩ := resetSize?_eq_some.mp hz
    exact .inl ⟨n, rfl, rfl, rfl⟩
  · refine .inr ⟨fun _ => Command.noConfusion, ?_⟩
    obtain ⟨-, rfl⟩ | ⟨v, -, ⟨-, rfl⟩ | ⟨a, -, rfl⟩⟩ := hset
    · exact ⟨rfl, rfl⟩
    · exact ⟨rfl, rfl⟩
    · exact ⟨rfl, rfl⟩
  · refine .inr ⟨fun _ => Command.noConfusion, ?_⟩
    obtain ⟨-, rfl⟩ | ⟨-, rfl⟩ | ⟨a, -, rfl⟩ := hins
    · exact ⟨rfl, rfl⟩
    · exact ⟨rfl, rfl⟩
    · exact ⟨rfl, rfl⟩
  · exact .inr ⟨fun _ => Command.noConfusion, rfl, rfl⟩

theorem issue_pc_of_failed (h : issue c s = .next t) (hf : t.resp.outcome = .failed) : t.pc = s.pc := by
  obtain ⟨-, ⟨z, n, rfl, hz, rfl⟩ | ⟨d, rfl, hset⟩ | ⟨op, d, rfl, hins⟩ | ⟨rfl, rfl⟩⟩ := issue_cases h
  · cases hf
  · obtain ⟨-, rfl⟩ | ⟨v, -, ⟨-, rfl⟩ | ⟨a, -, rfl⟩⟩ := hset
    · rfl
    · rfl
    · cases hf
  · obtain ⟨-, rfl⟩ | ⟨-, rfl⟩ | ⟨a, -, rfl⟩ := hins
    · rfl
    · rfl
    · cases hf
  · rfl

/-! ### Steps -/

theorem run_step_size (hr : s.engine = .running) (h : step s = .next t) : t.size = s.size := by
  obtain ⟨-, rfl⟩ | ⟨k, info, u, hpops, -, -, rfl⟩ | ⟨a, i, -, -, hdone⟩ := run_step_cases hr h
  · rfl
  · exact hpops.size_eq
  · exact hdone.size_eq

theorem run_step_commands (hr : s.engine = .running) (h : step s = .next t) : t.commands = s.commands := by
  obtain ⟨-, rfl⟩ | ⟨k, info, u, hpops, -, -, rfl⟩ | ⟨a, i, -, -, hdone⟩ := run_step_cases hr h
  · rfl
  · exact hpops.commands_eq
  · exact hdone.commands_eq

theorem step_sp_le (hs : s.sp ≤ s.size) (h : step s = .next t) : t.sp ≤ t.size := by
  cases hr : s.engine with
  | running =>
    obtain ⟨-, rfl⟩ | ⟨k, info, u, hpops, -, -, rfl⟩ | ⟨a, i, -, -, hdone⟩ := run_step_cases hr h
    · exact hs
    · exact hpops.sp_le hs
    · exact hdone.sp_le hs
  | ready =>
    obtain ⟨-, rfl⟩ | ⟨c, cs, -, hc⟩ := ready_step_cases hr h
    · exact hs
    · obtain ⟨n, -, hsize, hsp⟩ | ⟨-, hsize, hsp⟩ := issue_size_sp hc
      · rw [hsize, hsp]
      · rwa [hsize, hsp]

/-! ### The host's lists do not matter to a run -/

/-- The state with other commands pending, and with `earlier` events sent before its own. -/
def State.withHost (cs : List Command) (earlier : List Cell) (s : State) : State :=
  { s with commands := cs, output := earlier ++ s.output }

section WithHost

variable (cs : List Command) (earlier : List Cell)

theorem Raises.withHost (h : Raises s i k u) : Raises (s.withHost cs earlier) i k (u.withHost cs earlier) := by
  cases h with
  | pushNoRoom d h => exact .pushNoRoom d h
  | printNoItem d h => exact .printNoItem d h
  | callNotInt d h => exact .callNotInt d h
  | multNoItem d h => exact .multNoItem d h
  | multOneItem d hl hc h => exact .multOneItem d hl hc h
  | multNotInts d hl hc hc' h => exact .multNotInts d hl hc hc' h
  | multNotFits d hl hx hy h => exact .multNotFits d hl hx hy h
  | retNoItem d h => exact .retNoItem d h
  | retNotInt d hl hc h => exact .retNotInt d hl hc h

/-- An event is sent after the earlier ones. -/
theorem emit_withHost (s : State) (item : Cell) :
    (s.withHost cs earlier).emit item = (s.emit item).withHost cs earlier := by
  simp only [State.emit, State.withHost, List.append_assoc]

theorem Completes.withHost (h : Completes s i t) :
    Completes (s.withHost cs earlier) i (t.withHost cs earlier) := by
  cases h with
  | push d h0 hl he => exact .push d h0 hl he
  | print d hl hc =>
    have hdone : Completes (s.withHost cs earlier) (.print d)
        ((((popped s).withHost cs earlier).emit (s.cellAt s.sp)).setPc (s.pc + 1)) := .print d hl hc
    rw [emit_withHost] at hdone
    exact hdone
  | call v => exact .call v
  | mult d hl hx hy hf => exact .mult d hl hx hy hf
  | ret d hl hc => exact .ret d hl hc
  | stop d => exact .stop d

theorem run_step_withHost (hr : s.engine = .running) (h : step s = .next t) :
    step (s.withHost cs earlier) = .next (t.withHost cs earlier) := by
  have hr' : (s.withHost cs earlier).engine = .running := hr
  rw [step_of_running hr] at h
  obtain ⟨hp, rfl⟩ | ⟨hn, rfl⟩ | ⟨a, ha, hl, ⟨r, hd, rfl⟩ | ⟨i, hd, hx⟩⟩ := iterate_cases h
  · exact step_of_pc_past_end hr' hp
  · exact step_of_pc_neg hr' hn
  · exact step_of_decode_error hr' ha hl hd
  · rw [step_of_decode_ok hr' ha hl hd]
    obtain hdone | ⟨k, u, hraise, rfl⟩ := exec_cases hx
    · exact exec_of_completes (hdone.withHost cs earlier)
    · exact exec_of_raises (hraise.withHost cs earlier)

end WithHost

end Sys2Proof.Machine

namespace Sys2Proof.Proofs

open Sys2Proof.Machine

/-- Settles O22: the loop test ends the run ENDED, an error FAILED, and of the completed instructions STOP alone STOPPED. -/
theorem runEndsInOneOfThreeWays : Obligations.RunEndsInOneOfThreeWays := by
  intro s t hr h
  obtain ⟨hp, rfl⟩ | ⟨k, info, u, -, hk, -, rfl⟩ | ⟨a, i, ⟨ha, -⟩, hd, hdone⟩ := run_step_cases hr h
  · exact .inr (.inr (.inl ⟨rfl, rfl, hp⟩))
  · exact .inr (.inr (.inr ⟨rfl, rfl, hk⟩))
  · obtain ⟨he, hresp⟩ | ⟨⟨d, rfl⟩, rfl⟩ := hdone.engine_cases
    · exact .inl ⟨he.trans hr, hresp⟩
    · exact .inr (.inl ⟨rfl, rfl, a, d, ha, hd⟩)

/-- Settles O24: the pending commands stay, and each case of the step holds for the other lists too. -/
theorem runReadsNeitherCommandsNorOutput : Obligations.RunReadsNeitherCommandsNorOutput :=
  fun _ _ cs earlier hr h => ⟨run_step_commands hr h, run_step_withHost cs earlier hr h⟩

/-- Settles O26: a run that fails has done nothing but pops; a command that fails has written RESP alone. -/
theorem errorsKeepPc : Obligations.ErrorsKeepPc := by
  refine ⟨fun s t hr h he hf => ?_, fun _ _ _ => issue_pc_of_failed⟩
  obtain ⟨o, ho, rfl⟩ | ⟨-, rfl⟩ | ⟨r, -, rfl⟩ | ⟨i, k, u, -, -, hraise, rfl⟩ := run_ends_cases hr h he
  · rfl
  · rfl
  · rfl
  · exact hraise.pops.pc_eq

/-- Settles O34: neither the pops before an error nor a completed instruction reach such a cell. -/
theorem cellsBelowSpSurviveARun : Obligations.CellsBelowSpSurviveARun := by
  intro s t hr h a ha hne
  obtain ⟨-, rfl⟩ | ⟨k, info, u, hpops, -, -, rfl⟩ | ⟨b, i, -, -, hdone⟩ := run_step_cases hr h
  · rfl
  · exact (hpops.cellAt_below ha).2
  · exact hdone.cellAt_below ha hne

/-- Settles O35: `sp` after each command, after each way an instruction completes or fails, and its bound after a step. -/
theorem onlyPushPopAndResetWriteSp : Obligations.OnlyPushPopAndResetWriteSp := by
  refine ⟨fun c s t h => ?_, fun s t i h => ?_, fun _ _ => step_sp_le⟩
  · obtain ⟨n, rfl, hsize, hsp⟩ | ⟨hc, -, hsp⟩ := issue_size_sp h
    · exact .inl ⟨_, rfl, hsp.trans hsize.symm⟩
    · exact .inr ⟨hc, hsp⟩
  · obtain hdone | ⟨k, u, hraise, rfl⟩ := exec_cases h
    · cases hdone with
      | push d h0 hl he => exact .inr (Nat.sub_add_cancel h0)
      | print d => exact .inr rfl
      | call v => rfl
      | mult d => exact .inr (.inl rfl)
      | ret d => exact .inr rfl
      | stop d => rfl
    · cases hraise with
      | pushNoRoom d => exact .inl rfl
      | printNoItem d => exact .inl rfl
      | callNotInt d => rfl
      | multNoItem d => exact .inl rfl
      | multOneItem d => exact .inr (.inl rfl)
      | multNotInts d => exact .inr (.inr rfl)
      | multNotFits d => exact .inr (.inr rfl)
      | retNoItem d => exact .inl rfl
      | retNotInt d => exact .inr rfl

/-- Settles O45: a run keeps the size, and of the commands RESET alone writes it. -/
theorem sizeChangesOnlyByReset : Obligations.SizeChangesOnlyByReset := by
  intro s t h hne
  cases hr : s.engine with
  | running => exact absurd (run_step_size hr h) hne
  | ready =>
    obtain ⟨-, rfl⟩ | ⟨c, cs, hcs, hc⟩ := ready_step_cases hr h
    · exact absurd rfl hne
    · obtain ⟨n, rfl, hsize, -⟩ | ⟨-, hsize, -⟩ := issue_size_sp hc
      · exact ⟨rfl, n, cs, hcs, hsize⟩
      · exact absurd hsize hne

end Sys2Proof.Proofs
end

section
/-! SUPPORT and SETTLED. The legal states (`State.Inv`): each operation keeps them, so every step does (10_state.md, 20_memory.md
R52); the reset state is one; and from a legal state every step answers a next state (42_run_loop.md, 60_exceptions.md). -/

namespace Sys2Proof.Machine

variable {s t u : State} {i : Instr} {c : Command} {a : Nat}

/-! ### The operations on a legal state -/

namespace State.Inv

theorem setPc (hs : s.Inv) (v : Word) : (s.setPc v).Inv := hs

theorem setCommands (hs : s.Inv) (cs : List Command) : (s.setCommands cs).Inv := hs

theorem setEngine (hs : s.Inv) (e : Engine) : (s.setEngine e).Inv := hs

theorem respond (hs : s.Inv) {r : Resp} (hr : r.legal = true) : (s.respond r).Inv := by
  obtain ⟨hmin, hmax, hwf, hin, hsp, -, hout⟩ := hs
  exact ⟨hmin, hmax, hwf, hin, hsp, hr, hout⟩

theorem setSp (hs : s.Inv) {n : Nat} (hn : n ≤ s.size) : (s.setSp n).Inv := by
  obtain ⟨hmin, hmax, hwf, hin, -, hresp, hout⟩ := hs
  exact ⟨hmin, hmax, hwf, hin, hn, hresp, hout⟩

theorem setCell (hs : s.Inv) (ha : a < s.size) {c : Cell} (hc : c.canonical = true) : (s.setCell a c).Inv := by
  obtain ⟨hmin, hmax, hwf, hin, hsp, hresp, hout⟩ := hs
  exact ⟨hmin, hmax, Memory.wf_write a c hwf, Memory.inside_write hin ha hc, hsp, hresp, hout⟩

theorem emit (hs : s.Inv) {item : Cell} (hitem : legalEvent item = true) : (s.emit item).Inv := by
  obtain ⟨hmin, hmax, hwf, hin, hsp, hresp, hout⟩ := hs
  refine ⟨hmin, hmax, hwf, hin, hsp, hresp, ?_⟩
  rw [output_emit, List.all_append, hout, List.all_cons, hitem]
  rfl

/-- A non-EMPTY cell of a legal state may be sent. -/
theorem legalEvent_cellAt (hs : s.Inv) (ha : s.cellAt a ≠ .empty) : legalEvent (s.cellAt a) = true := by
  obtain ⟨-, -, -, hin, -⟩ := hs
  rw [legalEvent, decide_eq_true ha, Bool.true_and]
  exact Memory.canonical_read hin a

theorem finish (hs : s.Inv) {r : Resp} (hr : r.legal = true) : (s.finish r).Inv := (hs.setEngine .ready).respond hr

/-- Taking an error: it has a kind, and ERR_INFO is 0 but for UnknownInstruction (R33). -/
theorem fail (hs : s.Inv) {k : ErrKind} {info : CellWord} (hk : k ≠ .none)
    (hinfo : k = .unknownInstruction ∨ info = 0) : (s.fail k info).Inv :=
  hs.finish (by simpa [Resp.legal, hk] using hinfo)

theorem popped (hs : s.Inv) (hl : s.sp < s.size) : (popped s).Inv :=
  (hs.setCell hl (c := .empty) rfl).setSp hl

theorem pushed (hs : s.Inv) (h0 : 0 < s.sp) (hl : s.sp ≤ s.size) (d : Datum) : (pushed d s).Inv :=
  ((hs.setSp (n := s.sp - 1) (by omega)).setCell (a := s.sp - 1) (Nat.sub_one_lt_of_le h0 hl)
    (stackedCell_canonical d)).setPc (s.pc + 1)

end State.Inv

/-! ### The states that instructions, commands and steps leave -/

theorem Pops.inv (h : Pops s u) (hs : s.Inv) : u.Inv := by
  induction h with
  | refl => exact hs
  | pop _ hl ih => exact ih.popped hl

theorem Completes.inv (h : Completes s i t) (hs : s.Inv) : t.Inv := by
  cases h with
  | push d h0 hl he => exact hs.pushed h0 hl d
  | print d hl hc => exact ((hs.popped hl).emit (hs.legalEvent_cellAt hc)).setPc (s.pc + 1)
  | call v => exact hs.setPc v
  | mult d hl hx hy hf =>
    have hpopped : (popped (popped s)).Inv := (hs.popped (Nat.lt_of_succ_lt hl)).popped hl
    exact hpopped.pushed (Nat.succ_pos _) hl _
  | ret d hl hc => exact (hs.popped hl).setPc _
  | stop d => exact hs.finish rfl

theorem run_step_inv (hr : s.engine = .running) (h : step s = .next t) (hs : s.Inv) : t.Inv := by
  obtain ⟨-, rfl⟩ | ⟨k, info, u, hpops, hk, hinfo, rfl⟩ | ⟨a, i, -, -, hdone⟩ := run_step_cases hr h
  · exact hs.finish rfl
  · exact (hpops.inv hs).fail hk hinfo
  · exact hdone.inv hs

/-- Construction with a legal size (R35, R100) gives a legal state. -/
theorem State.inv_resetTo {n : Nat} (hmin : 1 ≤ n) (hmax : n ≤ Config.maxSize) : (State.resetTo n).Inv :=
  ⟨hmin, hmax, rfl, rfl, Nat.le_refl n, rfl, rfl⟩

theorem issue_inv (h : issue c s = .next t) (hs : s.Inv) : t.Inv := by
  obtain ⟨-, ⟨z, n, rfl, hz, rfl⟩ | ⟨d, rfl, hset⟩ | ⟨op, d, rfl, hins⟩ | ⟨rfl, rfl⟩⟩ := issue_cases h
  · obtain ⟨-, -, -, -, -, -, hout⟩ := hs
    obtain ⟨-, hmin, hmax⟩ := resetSize?_eq_some.mp hz
    obtain ⟨-, -, hwf, hin, hsp, hresp, -⟩ := State.inv_resetTo hmin hmax
    exact ⟨hmin, hmax, hwf, hin, hsp, hresp, hout⟩
  · obtain ⟨-, rfl⟩ | ⟨v, -, ⟨-, rfl⟩ | ⟨a, -, rfl⟩⟩ := hset
    · exact hs.fail (by decide) (.inr rfl)
    · exact hs.fail (by decide) (.inr rfl)
    · exact (hs.setPc v).respond rfl
  · obtain ⟨-, rfl⟩ | ⟨-, rfl⟩ | ⟨a, ha, rfl⟩ := hins
    · exact hs.fail (by decide) (.inr rfl)
    · exact hs.fail (by decide) (.inr rfl)
    · obtain ⟨-, -, hl⟩ := cellIndex?_eq_some.mp ha
      have hstored : (s.setCell a (.instr op.token (storedOperand d))).Inv :=
        hs.setCell hl (storedOperand_canonical d)
      exact (hstored.setPc (s.pc + 1)).respond rfl
  · exact hs.setEngine .running

theorem step_inv (h : step s = .next t) (hs : s.Inv) : t.Inv := by
  cases hr : s.engine with
  | running => exact run_step_inv hr h hs
  | ready =>
    obtain ⟨-, rfl⟩ | ⟨c, cs, -, hc⟩ := ready_step_cases hr h
    · exact hs
    · exact issue_inv hc (hs.setCommands cs)

/-! ### A legal state has a next one -/

/-- With `sp` in 0..N there is nothing to pop, or there is an item. -/
theorem no_item_or_item (hsp : s.sp ≤ s.size) :
    (s.sp = s.size ∨ s.sp < s.size ∧ s.cellAt s.sp = .empty) ∨ (s.sp < s.size ∧ s.cellAt s.sp ≠ .empty) := by
  have := Nat.lt_or_eq_of_le hsp
  tauto

/-- With `sp` in 0..N an instruction completes or raises an error; it reaches for no cell outside memory. -/
theorem completes_or_raises (i : Instr) (hsp : s.sp ≤ s.size) :
    (∃ t, Completes s i t) ∨ ∃ k u, Raises s i k u := by
  cases i with
  | push d =>
    by_cases h0 : s.sp = 0
    · exact .inr ⟨_, _, .pushNoRoom d (.inl h0)⟩
    · by_cases he : s.cellAt (s.sp - 1) = .empty
      · exact .inl ⟨_, .push d (Nat.pos_of_ne_zero h0) hsp he⟩
      · exact .inr ⟨_, _, .pushNoRoom d (.inr ⟨hsp, he⟩)⟩
  | print d =>
    obtain hno | ⟨hl, hc⟩ := no_item_or_item hsp
    · exact .inr ⟨_, _, .printNoItem d hno⟩
    · exact .inl ⟨_, .print d hl hc⟩
  | call d =>
    obtain ⟨k, v⟩ := d
    by_cases hk : k = .int
    · subst hk
      exact .inl ⟨_, .call v⟩
    · exact .inr ⟨_, _, .callNotInt _ hk⟩
  | mult d =>
    obtain hno | ⟨hl, hc⟩ := no_item_or_item hsp
    · exact .inr ⟨_, _, .multNoItem d hno⟩
    · by_cases hend : s.sp + 1 = s.size ∨ s.cellAt (s.sp + 1) = .empty
      · exact .inr ⟨_, _, .multOneItem d hl hc hend⟩
      · obtain ⟨hne, hc'⟩ := not_or.mp hend
        have hl' : s.sp + 1 < s.size := Nat.lt_of_le_of_ne hl hne
        cases hx : intItem? (s.cellAt s.sp) with
        | none => exact .inr ⟨_, _, .multNotInts d hl' hc hc' (.inl hx)⟩
        | some x =>
          cases hy : intItem? (s.cellAt (s.sp + 1)) with
          | none => exact .inr ⟨_, _, .multNotInts d hl' hc hc' (.inr hy)⟩
          | some y =>
            rw [intItem?_eq_some] at hx hy
            cases hf : fitsW (sintW x * sintW y) with
            | false => exact .inr ⟨_, _, .multNotFits d hl' hx hy hf⟩
            | true => exact .inl ⟨_, .mult d hl' hx hy hf⟩
  | ret d =>
    obtain hno | ⟨hl, hc⟩ := no_item_or_item hsp
    · exact .inr ⟨_, _, .retNoItem d hno⟩
    · cases hv : intItem? (s.cellAt s.sp) with
      | none => exact .inr ⟨_, _, .retNotInt d hl hc hv⟩
      | some v => exact .inl ⟨_, .ret d hl (intItem?_eq_some.mp hv)⟩
  | stop d => exact .inl ⟨_, .stop d⟩

theorem exec_exists_next (i : Instr) (hsp : s.sp ≤ s.size) : ∃ t, exec i s = .next t := by
  obtain ⟨t, hdone⟩ | ⟨k, u, hraise⟩ := completes_or_raises i hsp
  · exact ⟨t, exec_of_completes hdone⟩
  · exact ⟨u.fail k 0, exec_of_raises hraise⟩

theorem run_step_exists_next (hr : s.engine = .running) (hsp : s.sp ≤ s.size) : ∃ t, step s = .next t := by
  by_cases hp : (s.size : Int) ≤ sintW s.pc
  · exact ⟨_, step_of_pc_past_end hr hp⟩
  · by_cases hn : sintW s.pc < 0
    · exact ⟨_, step_of_pc_neg hr hn⟩
    · have ha : sintW s.pc = (sintW s.pc).toNat := by omega
      have hl : (sintW s.pc).toNat < s.size := by omega
      cases hd : decode (s.cellAt (sintW s.pc).toNat) with
      | error r => exact ⟨_, step_of_decode_error hr ha hl hd⟩
      | ok i =>
        rw [step_of_decode_ok hr ha hl hd]
        exact exec_exists_next i hsp

theorem issue_reset_of_size {z : SizeArg} {n : Nat} (hr : s.engine = .ready) (hz : resetSize? z = some n) :
    issue (.reset z) s = .next { State.resetTo n with commands := s.commands, output := s.output } := by
  simp only [issue, hr, issueReset, hz]

theorem issue_reset_of_bad_size {z : SizeArg} (hr : s.engine = .ready) (hz : resetSize? z = none) :
    issue (.reset z) s = .refused .badResetSize := by
  simp only [issue, hr, issueReset, hz]

theorem issue_execute_of_ready (hr : s.engine = .ready) : issue .execute s = .next (s.setEngine .running) := by
  simp only [issue, hr, issueExecute]

/-- Every command but a RESET of a bad size is served. -/
theorem issue_exists_next (hr : s.engine = .ready) (hc : ∀ z, c = .reset z → resetSize? z ≠ none) :
    ∃ t, issue c s = .next t := by
  cases c with
  | reset z =>
    obtain ⟨n, hn⟩ := Option.ne_none_iff_exists'.mp (hc z rfl)
    exact ⟨_, issue_reset_of_size hr hn⟩
  | setAddress d =>
    rw [issue_setAddress_of_ready hr]
    obtain ⟨k, v⟩ := d
    by_cases hk : k = .int
    · subst hk
      cases hv : cellIndex? s.size v with
      | none => exact ⟨_, issueSetAddress_of_out_of_range hv⟩
      | some a => exact ⟨_, issueSetAddress_of_in_range hv⟩
    · exact ⟨_, issueSetAddress_of_not_int hk⟩
  | insert op d =>
    rw [issue_insert_of_ready hr]
    obtain ⟨isToken, tok⟩ := op
    cases isToken with
    | false => exact ⟨_, issueInsert_of_not_token⟩
    | true =>
      cases hp : cellIndex? s.size s.pc with
      | none => exact ⟨_, issueInsert_of_out_of_range hp⟩
      | some a => exact ⟨_, issueInsert_of_in_range hp⟩
  | execute => exact ⟨_, issue_execute_of_ready hr⟩

theorem step_of_idle (hr : s.engine = .ready) (hcs : s.commands = []) : step s = .next s := by
  simp only [step, hr, serveHost, hcs]

theorem step_of_command {cs : List Command} (hr : s.engine = .ready) (hcs : s.commands = c :: cs) :
    step s = issue c (s.setCommands cs) := by
  simp only [step, hr, serveHost, hcs]

theorem step_exists_next (hsp : s.sp ≤ s.size) (hbad : ¬ s.badResetNext) : ∃ t, step s = .next t := by
  cases hr : s.engine with
  | running => exact run_step_exists_next hr hsp
  | ready =>
    cases hcs : s.commands with
    | nil => exact ⟨s, step_of_idle hr hcs⟩
    | cons c cs =>
      rw [step_of_command hr hcs]
      refine issue_exists_next (s := s.setCommands cs) hr fun z hz hnone => hbad ⟨hr, z, cs, ?_, hnone⟩
      rw [hcs, hz]

theorem step_of_badResetNext (hbad : s.badResetNext) : step s = .refused .badResetSize := by
  obtain ⟨hr, z, cs, hcs, hz⟩ := hbad
  rw [step_of_command hr hcs]
  exact issue_reset_of_bad_size (s := s.setCommands cs) hr hz

end Sys2Proof.Machine

namespace Sys2Proof.Proofs

open Sys2Proof.Machine

/-- Settles O46: a run pops, pushes, sends items and responds, a command stores a canonical operand inside memory, and each
of these keeps the invariant. -/
theorem everyStepKeepsTheInvariant : Obligations.EveryStepKeepsTheInvariant :=
  fun _ _ hs h => step_inv h hs

/-- Settles O47: construction with a legal size, of which `Config.resetSize` is one. -/
theorem resetMeetsTheInvariant : Obligations.ResetMeetsTheInvariant :=
  ⟨State.inv_resetTo Config.one_le_resetSize Config.resetSize_le, fun _ => State.inv_resetTo⟩

/-- Settles O48: `sp` in 0..N is all that a next state needs, but for the RESET that is refused. -/
theorem legalStatesAlwaysStep : Obligations.LegalStatesAlwaysStep := by
  rintro s ⟨-, -, -, -, hsp, -⟩
  exact ⟨step_exists_next hsp, step_of_badResetNext⟩

end Sys2Proof.Proofs
end

section
/-! SUPPORT and SETTLED. The frame of each instruction (43_instructions.md section 2): the cells it may store to, and the
registers it leaves as they are. -/

namespace Sys2Proof.Machine

variable {d : Datum} {s t : State} {a : Nat}

/-! ### The cells a push or a pop leaves as they are -/

theorem cellAt_pushed_of_ne_target (h0 : 0 < s.sp) (ha : pushTarget? s ≠ some a) :
    (pushed d s).cellAt a = s.cellAt a := by
  have hne : a ≠ s.sp - 1 := by
    rintro rfl
    exact ha (if_neg (Nat.ne_of_gt h0))
  rw [cellAt_pushed, if_neg hne]

theorem popTarget?_of_lt (hl : s.sp < s.size) : popTarget? s = some s.sp := if_neg (Nat.ne_of_lt hl)

theorem cellAt_popped_of_ne_target (hl : s.sp < s.size) (ha : popTarget? s ≠ some a) :
    (popped s).cellAt a = s.cellAt a := by
  have hne : a ≠ s.sp := by
    rintro rfl
    exact ha (popTarget?_of_lt hl)
  rw [cellAt_popped, if_neg hne]

theorem cellAt_popped_of_target (hl : s.sp < s.size) (ha : popTarget? s = some a) : (popped s).cellAt a = .empty := by
  rw [popTarget?_of_lt hl, Option.some.injEq] at ha
  rw [cellAt_popped, if_pos ha.symm]

/-- Where a pop finds nothing, its target holds EMPTY already. -/
theorem cellAt_of_no_item (h : s.sp = s.size ∨ s.sp < s.size ∧ s.cellAt s.sp = .empty)
    (ha : popTarget? s = some a) : s.cellAt a = .empty := by
  obtain hend | ⟨hl, he⟩ := h
  · rw [popTarget?, if_pos hend] at ha
    cases ha
  · rw [popTarget?_of_lt hl, Option.some.injEq] at ha
    rwa [← ha]

/-! ### PRINT and RET: at most one pop -/

/-- PRINT and RET find nothing to pop, or pop an item and then send it, fail or jump. -/
theorem print_or_ret_cases (h : exec (.print d) s = .next t ∨ exec (.ret d) s = .next t) :
    ((s.sp = s.size ∨ s.sp < s.size ∧ s.cellAt s.sp = .empty) ∧ t = s.fail .emptyStack 0) ∨
    (s.sp < s.size ∧
      (t = ((popped s).emit (s.cellAt s.sp)).setPc (s.pc + 1) ∨ t = (popped s).fail .invalidAddressType 0 ∨
        ∃ v, t = (popped s).setPc v)) := by
  obtain h | h := h
  · obtain hno | ⟨⟨hl, -⟩, ht⟩ := execPrint_cases (d := d) h
    · exact .inl hno
    · exact .inr ⟨hl, .inl ht⟩
  · obtain hno | ⟨⟨hl, -⟩, ⟨-, ht⟩ | ⟨v, -, ht⟩⟩ := execRet_cases (d := d) h
    · exact .inl hno
    · exact .inr ⟨hl, .inr (.inl ht)⟩
    · exact .inr ⟨hl, .inr (.inr ⟨v, ht⟩)⟩

theorem output_of_exec_ret (h : exec (.ret d) s = .next t) : t.output = s.output :=
  (exec_output h).resolve_right fun ⟨⟨_, hprint⟩, _⟩ => Instr.noConfusion hprint

/-! ### MULT: at most two pops, the second of which gives the cell for the product -/

theorem cellAt_popped_popped_of_ne_targets (hl : s.sp + 1 < s.size) (ha : popTarget? s ≠ some a)
    (ha' : popTarget? (popped s) ≠ some a) : (popped (popped s)).cellAt a = s.cellAt a := by
  rw [cellAt_popped_of_ne_target hl ha', cellAt_popped_of_ne_target (Nat.lt_of_succ_lt hl) ha]

theorem cellAt_pushed_popped_popped_of_ne_targets (hl : s.sp + 1 < s.size) (ha : popTarget? s ≠ some a)
    (ha' : popTarget? (popped s) ≠ some a) : (pushed d (popped (popped s))).cellAt a = s.cellAt a := by
  have htarget : pushTarget? (popped (popped s)) = popTarget? (popped s) := (popTarget?_of_lt hl).symm
  rw [cellAt_pushed_of_ne_target (Nat.succ_pos _) (htarget ▸ ha'), cellAt_popped_popped_of_ne_targets hl ha ha']

end Sys2Proof.Machine

namespace Sys2Proof.Proofs

open Sys2Proof.Machine

/-- Settles O15: PUSH fails and writes ENGINE and RESP, or pushes and stores to its target. -/
theorem pushFrame : Obligations.PushFrame := by
  intro d s t h
  obtain ⟨-, rfl⟩ | ⟨⟨h0, -, -⟩, rfl⟩ := execPush_cases (d := d) h
  · exact ⟨rfl, rfl, rfl, fun _ _ => rfl, .inr rfl⟩
  · exact ⟨rfl, rfl, rfl, fun _ => cellAt_pushed_of_ne_target h0, .inl ⟨Nat.sub_add_cancel h0, rfl, rfl⟩⟩

/-- Settles O16: nothing was popped and the run fails, or the item was popped, after which memory and `sp` stay. -/
theorem printAndRetFrame : Obligations.PrintAndRetFrame := by
  intro d s t h
  obtain ⟨hno, rfl⟩ | ⟨hl, rfl | rfl | ⟨v, rfl⟩⟩ := print_or_ret_cases h
  · exact ⟨rfl, rfl, fun _ _ => rfl, fun _ => cellAt_of_no_item hno, .inl rfl, output_of_exec_ret, .inl rfl,
      .inr ⟨rfl, rfl, rfl, rfl⟩⟩
  · exact ⟨rfl, rfl, fun _ => cellAt_popped_of_ne_target hl, fun _ => cellAt_popped_of_target hl, .inr rfl,
      output_of_exec_ret, .inr rfl, .inl ⟨rfl, rfl⟩⟩
  · exact ⟨rfl, rfl, fun _ => cellAt_popped_of_ne_target hl, fun _ => cellAt_popped_of_target hl, .inr rfl,
      output_of_exec_ret, .inl rfl, .inr ⟨rfl, rfl, rfl, rfl⟩⟩
  · exact ⟨rfl, rfl, fun _ => cellAt_popped_of_ne_target hl, fun _ => cellAt_popped_of_target hl, .inr rfl,
      output_of_exec_ret, .inl rfl, .inl ⟨rfl, rfl⟩⟩

/-- Settles O17: MULT fails after no pop, one or two, or pushes the product over the second cell it popped. -/
theorem multFrame : Obligations.MultFrame := by
  intro d s t h
  obtain ⟨-, rfl⟩ | ⟨⟨hl, -⟩, ⟨-, rfl⟩ | ⟨⟨hl', -⟩, ⟨-, rfl⟩ | ⟨x, y, -, -, ⟨-, rfl⟩ | ⟨-, rfl⟩⟩⟩⟩ :=
    execMult_cases (d := d) h
  · exact ⟨rfl, rfl, rfl, fun _ _ _ => rfl, .inr ⟨rfl, rfl, rfl, Nat.le_refl _, Nat.le_add_right ..⟩⟩
  · exact ⟨rfl, rfl, rfl, fun _ ha _ => cellAt_popped_of_ne_target hl ha,
      .inr ⟨rfl, rfl, rfl, Nat.le_succ _, Nat.le_succ _⟩⟩
  · exact ⟨rfl, rfl, rfl, fun _ => cellAt_popped_popped_of_ne_targets hl',
      .inr ⟨rfl, rfl, rfl, Nat.le_add_right s.sp 2, Nat.le_refl _⟩⟩
  · exact ⟨rfl, rfl, rfl, fun _ => cellAt_popped_popped_of_ne_targets hl',
      .inr ⟨rfl, rfl, rfl, Nat.le_add_right s.sp 2, Nat.le_refl _⟩⟩
  · exact ⟨rfl, rfl, rfl, fun _ => cellAt_pushed_popped_popped_of_ne_targets hl', .inl ⟨rfl, rfl, rfl⟩⟩

/-- Settles O18: CALL writes `pc`, or ENGINE and RESP with its error; STOP writes ENGINE and RESP. -/
theorem callAndStopFrame : Obligations.CallAndStopFrame := by
  rintro d s t (h | h)
  · obtain ⟨-, rfl⟩ | ⟨v, -, rfl⟩ := execCall_cases (d := d) h
    · exact ⟨rfl, rfl, rfl, rfl, fun _ => rfl, .inr ⟨rfl, rfl⟩⟩
    · exact ⟨rfl, rfl, rfl, rfl, fun _ => rfl, .inl ⟨rfl, rfl⟩⟩
  · obtain rfl := execStop_cases (d := d) h
    exact ⟨rfl, rfl, rfl, rfl, fun _ => rfl, .inr ⟨rfl, rfl⟩⟩

end Sys2Proof.Proofs
end

section
/-! SUPPORT and SETTLED. The stack's LIFO law (R129): a pop gives back the datum that the push before it stored, and leaves the
stack as it was before both; and the EMPTY hole of an operand-less PUSH (R128, R240). -/

namespace Sys2Proof.Machine

variable {d : Datum} {s t u : State}

/-! ### States with the same stack -/

/-- The states agree in all that a pop reads and a push checks: the size, `sp` and every cell. -/
structure SameStack (s u : State) : Prop where
  size : u.size = s.size
  sp : u.sp = s.sp
  cellAt : ∀ a, u.cellAt a = s.cellAt a

namespace SameStack

theorem trans (h : SameStack s t) (h' : SameStack t u) : SameStack s u :=
  ⟨h'.size.trans h.size, h'.sp.trans h.sp, fun a => (h'.cellAt a).trans (h.cellAt a)⟩

theorem popped (h : SameStack s u) : SameStack (popped s) (popped u) := by
  refine ⟨h.size, congrArg (· + 1) h.sp, fun a => ?_⟩
  rw [cellAt_popped, cellAt_popped, h.sp, h.cellAt]

theorem pop_of_item (h : SameStack s u) (hl : s.sp < s.size) (he : s.cellAt s.sp ≠ .empty) :
    pop u = .ok (s.cellAt s.sp) (Machine.popped u) := by
  rw [← h.sp, ← h.cellAt] at he ⊢
  exact Machine.pop_of_item (by rwa [h.sp, h.size]) he

theorem pop_of_hole (h : SameStack s u) (hl : s.sp < s.size) (he : s.cellAt s.sp = .empty) :
    pop u = .raised .emptyStack 0 u := by
  rw [← h.sp, ← h.cellAt] at he
  exact pop_of_no_item (.inr ⟨by rwa [h.sp, h.size], he⟩)

end SameStack

/-! ### A push and the pop after it -/

/-- A pop right after a push clears the cell that the push found EMPTY. -/
theorem sameStack_popped_pushed (h0 : 0 < s.sp) (he : s.cellAt (s.sp - 1) = .empty) :
    SameStack s (popped (pushed d s)) := by
  refine ⟨rfl, Nat.sub_add_cancel h0, fun a => ?_⟩
  rw [cellAt_popped, sp_pushed, cellAt_pushed]
  split
  case isTrue ha => rw [ha, he]
  case isFalse ha => rfl

theorem cellAt_sp_pushed (hk : d.kind ≠ .absent) : (pushed d s).cellAt (s.sp - 1) = .value d := by
  rw [cellAt_pushed, if_pos rfl, stackedCell_eq, if_neg hk]

/-- A push leaves the cell that the next push checks. -/
theorem cellAt_next_target_pushed (h0 : 1 < s.sp) : (pushed d s).cellAt (s.sp - 1 - 1) = s.cellAt (s.sp - 2) := by
  rw [cellAt_pushed, if_neg (by omega), Nat.sub_sub]

/-- Whatever has the stack that the push left, a pop there gives the datum back. -/
theorem pop_of_sameStack_pushed (h : SameStack (pushed d s) u) (h0 : 0 < s.sp) (hl : s.sp ≤ s.size)
    (hk : d.kind ≠ .absent) : pop u = .ok (.value d) (popped u) := by
  have hcell : (pushed d s).cellAt (pushed d s).sp = .value d := cellAt_sp_pushed hk
  have hne : (pushed d s).cellAt (pushed d s).sp ≠ .empty := hcell ▸ Cell.noConfusion
  rw [h.pop_of_item (Nat.sub_one_lt_of_le h0 hl) hne, hcell]

theorem pop_pushed (h0 : 0 < s.sp) (hl : s.sp ≤ s.size) (hk : d.kind ≠ .absent) :
    pop (pushed d s) = .ok (.value d) (popped (pushed d s)) :=
  pop_of_sameStack_pushed ⟨rfl, rfl, fun _ => rfl⟩ h0 hl hk

/-! ### The hole (R240) -/

/-- An operand-less push stores EMPTY over EMPTY: every cell reads as before. -/
theorem cellAt_pushed_of_absent (hk : d.kind = .absent) (he : s.cellAt (s.sp - 1) = .empty) (a : Nat) :
    (pushed d s).cellAt a = s.cellAt a := by
  rw [cellAt_pushed, stackedCell_eq, if_pos hk]
  split
  case isTrue ha => rw [ha, he]
  case isFalse ha => rfl

end Sys2Proof.Machine

namespace Sys2Proof.Proofs

open Sys2Proof.Machine

/-- Settles O32: the first pop restores the stack of the first push, so the second pop gives its datum and restores the
stack before both. -/
theorem pushesPopInReverse : Obligations.PushesPopInReverse := by
  intro s v1 v2 h2 hl hk1 hk2 he1 he2
  have h0 : 0 < s.sp := by omega
  have h0' : 0 < (pushed v1 s).sp := Nat.sub_pos_of_lt h2
  have hl' : (pushed v1 s).sp ≤ (pushed v1 s).size := Nat.le_trans (Nat.sub_le ..) hl
  have he' : (pushed v1 s).cellAt ((pushed v1 s).sp - 1) = .empty := (cellAt_next_target_pushed h2).trans he2
  have hfirst : SameStack (pushed v1 s) (popped (pushed v2 (pushed v1 s))) := sameStack_popped_pushed h0' he'
  have hboth : SameStack s (popped (popped (pushed v2 (pushed v1 s)))) :=
    (sameStack_popped_pushed h0 he1).trans hfirst.popped
  refine ⟨_, _, _, _, push_of_room h0 hl he1, push_of_room h0' hl' he', pop_pushed h0' hl' hk2,
    pop_of_sameStack_pushed hfirst h0 hl hk1, hboth.sp, hboth.cellAt, ?_, ?_, ?_, rfl, rfl⟩
  · rw [hboth.cellAt, he1]
  · rw [hboth.cellAt, he2]
  · exact BitVec.add_assoc s.pc 1 1

/-- Settles O33: after the operand-less push the cell at `sp` is EMPTY, and a push over it and its pop restore that stack. -/
theorem absentPushLeavesAHole : Obligations.AbsentPushLeavesAHole := by
  intro d s hk h0 hl he
  have hcells := cellAt_pushed_of_absent hk he
  have hhole : (pushed d s).cellAt (pushed d s).sp = .empty := (hcells _).trans he
  have hlt : (pushed d s).sp < (pushed d s).size := Nat.sub_one_lt_of_le h0 hl
  refine ⟨_, execPush_of_room h0 hl he, rfl, rfl, hhole, hcells, pop_of_no_item (.inr ⟨hlt, hhole⟩),
    fun v hv h1 he2 => ?_⟩
  have h0' : 0 < (pushed d s).sp := Nat.sub_pos_of_lt h1
  have he' : (pushed d s).cellAt ((pushed d s).sp - 1) = .empty := (cellAt_next_target_pushed h1).trans he2
  have hback : SameStack (pushed d s) (popped (pushed v (pushed d s))) := sameStack_popped_pushed h0' he'
  exact ⟨_, _, push_of_room h0' hlt.le he', pop_pushed h0' hlt.le hv, hback.sp, hback.pop_of_hole hlt hhole⟩

end Sys2Proof.Proofs
end

section
/-! SUPPORT and SETTLED. Steps in sequence: the run loop's iterations and the host's commands one after another (42_run_loop.md
section 1, 40_host_interface.md sections 1 to 4; entries 5 and 6), RESET (R100), and the observation reads (R111). -/

namespace Sys2Proof.Machine

variable {s t : State} {i : Instr} {d : Datum} {a k : Nat} {rest : List Command}

/-! ### Steps in sequence -/

theorem run_succ_of_next (h : step s = .next t) : Sys2Proof.core.run (k + 1) s = Sys2Proof.core.run k t := by
  have hcore : Sys2Proof.core.step s = .next t := h
  simp only [Host.Core.run, hcore]

theorem run_one (s : State) : Sys2Proof.core.run 1 s = step s := by
  have hcore : Sys2Proof.core.step s = step s := rfl
  simp only [Host.Core.run, hcore]
  cases step s <;> rfl

/-- A step that changes nothing is taken for ever. -/
theorem run_of_step_self (h : step s = .next s) (k : Nat) : Sys2Proof.core.run k s = .next s := by
  induction k with
  | zero => rfl
  | succ k ih => exact (run_succ_of_next h).trans ih

theorem step_of_execute (hr : s.engine = .ready) (hcs : s.commands = .execute :: rest) :
    step s = .next { s with engine := .running, commands := rest } := by
  rw [step_of_command hr hcs]
  exact issue_execute_of_ready (s := s.setCommands rest) hr

/-- An EXECUTE and the iteration after it (entry 5). -/
theorem run_two_of_execute (hr : s.engine = .ready) (hcs : s.commands = .execute :: rest) :
    Sys2Proof.core.run 2 s = step { s with engine := .running, commands := rest } := by
  rw [run_succ_of_next (step_of_execute hr hcs), run_one]

/-- The cell word at `pc` decodes as the cell does, canonical or not. -/
theorem decode_of_decodeWord_toWord {c : Cell} (h : decodeWord c.toWord = .ok i) : decode c = .ok i :=
  decode_eq_ok_iff.mpr (eq_of_cellOfWord_toWord (decodeWord_eq_ok_iff.mp h)).symm

/-! ### Commands -/

theorem issue_of_running (c : Command) (hr : s.engine = .running) : issue c s = .refused .commandWhileRunning := by
  simp only [issue, hr]

theorem issue_keeps_commands {c : Command} (h : issue c s = .next t) : t.commands = s.commands := by
  obtain ⟨-, ⟨z, n, -, -, rfl⟩ | ⟨d, -, hset⟩ | ⟨op, d, -, hins⟩ | ⟨-, rfl⟩⟩ := issue_cases h
  · rfl
  · obtain ⟨-, rfl⟩ | ⟨v, -, ⟨-, rfl⟩ | ⟨a, -, rfl⟩⟩ := hset
    · rfl
    · rfl
    · rfl
  · obtain ⟨-, rfl⟩ | ⟨-, rfl⟩ | ⟨a, -, rfl⟩ := hins
    · rfl
    · rfl
    · rfl
  · rfl

/-- R100: the sizes that break RESET's precondition. -/
theorem resetSize?_of_bad_size {v : Int} (hv : v < 1 ∨ 2 ^ 63 - 1 < v) : resetSize? (.int v) = none := by
  refine Option.eq_none_iff_forall_ne_some.mpr fun n hn => ?_
  obtain ⟨hz, hmin, hmax⟩ := resetSize?_eq_some.mp hn
  cases hz
  unfold Config.maxSize at hmax
  omega

/-- The field of an address below `2^(W-1)` reads back as the address (R12). -/
theorem sintW_ofNat (ha : a < 2 ^ 63) : sintW (BitVec.ofNat 64 a) = a := by
  rw [sintW, BitVec.toInt_ofNat']
  exact Int.bmod_eq_of_le (by omega) (by omega)

/-- INSERT stores a canonical operand as it is (R104). -/
theorem storedOperand_of_canonical (hd : d.canonical = true) : storedOperand d = d := by
  obtain ⟨k, v⟩ := d
  cases k with
  | absent =>
    have hv : v = 0#64 := by simpa [Datum.canonical] using hd
    rw [hv]
    rfl
  | int => rfl
  | other => rfl

theorem step_of_setAddress {v : Word} (hr : s.engine = .ready) (hcs : s.commands = .setAddress (Datum.int v) :: rest)
    (hv : sintW v = a) (hl : a < s.size) : step s = .next (((s.setCommands rest).setPc v).respond Resp.okay) := by
  have hindex : cellIndex? s.size v = some a := cellIndex?_eq_some.mpr (by omega)
  rw [step_of_command hr hcs, issue_setAddress_of_ready (s := s.setCommands rest) hr]
  exact issueSetAddress_of_in_range hindex

theorem step_of_insert {tok : Token} (hr : s.engine = .ready) (hcs : s.commands = .insert ⟨true, tok⟩ d :: rest)
    (hpc : sintW s.pc = a) (hl : a < s.size) :
    step s =
      .next ((((s.setCommands rest).setCell a (.instr tok (storedOperand d))).setPc (s.pc + 1)).respond
        Resp.okay) := by
  have hindex : cellIndex? s.size s.pc = some a := cellIndex?_eq_some.mpr (by omega)
  rw [step_of_command hr hcs, issue_insert_of_ready (s := s.setCommands rest) hr]
  exact issueInsert_of_in_range hindex

/-! ### Observation -/

theorem observe_of_running (p : Probe) (hr : s.engine = .running) : observe p s = none := by
  simp only [observe, hr]

theorem observe_cell_of_lt (hr : s.engine = .ready) (ha : a < s.size) :
    observe (.cell a) s = some (.cell (s.cellAt a).toWord) := by
  simp only [observe, hr, ha, if_true]

theorem observe_cell_of_le (ha : s.size ≤ a) : observe (.cell a) s = none := by
  cases hr : s.engine with
  | running => exact observe_of_running _ hr
  | ready => simp only [observe, hr, Nat.not_lt_of_le ha, if_false]

theorem observe_registers (hr : s.engine = .ready) :
    observe .pc s = some (.pc s.pc) ∧ observe .sp s = some (.sp s.sp) ∧ observe .engine s = some (.engine 0) ∧
      observe .resp s =
        some (.resp (outcomeCode s.resp.outcome) (errKindCode s.resp.errKind) s.resp.errInfo) := by
  cases s
  cases hr
  exact ⟨rfl, rfl, rfl, rfl⟩

end Sys2Proof.Machine

namespace Sys2Proof.Proofs

open Sys2Proof.Machine

/-- Settles O12: the STOP, the EXECUTE after it, and the same STOP again, at the `pc` that neither has changed. -/
theorem stopFollowsItsRule : Obligations.StopFollowsItsRule := by
  refine ⟨Laws.Header.stop, fun _ _ => rfl, fun d s a rest hr ha hl hd hcs => ?_⟩
  have hstop : step s = .next (s.finish ⟨.stopped, .none, 0⟩) := step_of_decode_ok hr ha hl hd
  have hexecute := run_two_of_execute (s := s.finish ⟨.stopped, .none, 0⟩) rfl hcs
  have hagain := step_of_decode_ok
    (s := { s.finish ⟨.stopped, .none, 0⟩ with engine := .running, commands := rest }) rfl ha hl hd
  exact (run_succ_of_next hstop).trans (hexecute.trans hagain)

/-- Settles O19: the decoded cell's instruction is executed, and the cell word decodes as the cell does. -/
theorem stepRunsDecodedInstruction : Obligations.StepRunsDecodedInstruction :=
  ⟨fun _ _ _ => step_of_decode_ok, fun _ _ _ hr ha hl h => step_of_decode_ok hr ha hl (decode_of_decodeWord_toWord h)⟩

/-- Settles O20: the loop test of a RUNNING step, which is also the step after an EXECUTE. -/
theorem loopTestEndsRun : Obligations.LoopTestEndsRun := by
  refine ⟨fun s => step_of_pc_past_end, fun s rest hr hcs hp => ?_⟩
  rw [run_two_of_execute hr hcs]
  exact step_of_pc_past_end rfl hp

/-- Settles O23: the CALL writes to `pc` what stands there, so the step changes nothing. -/
theorem callToItselfNeverEnds : Obligations.CallToItselfNeverEnds := by
  intro k a s hr ha hl hc
  have hd : decode (s.cellAt a) = .ok (.call (Datum.int s.pc)) := decode_eq_ok_iff.mpr hc
  have hself : step s = .next s := step_of_decode_ok hr ha hl hd
  exact run_of_step_self hself k

/-- Settles O38: RESET with a size that `resetSize?` accepts, and with one that it does not. -/
theorem resetConstructsOrIsRefused : Obligations.ResetConstructsOrIsRefused :=
  ⟨fun _ _ hr hmin hmax => issue_reset_of_size hr (resetSize?_eq_some.mpr ⟨rfl, hmin, hmax⟩),
    fun _ _ hr hv => issue_reset_of_bad_size hr (resetSize?_of_bad_size hv), fun _ hr => issue_reset_of_bad_size hr rfl⟩

/-- Settles O41: the EXECUTE's own step, and the RUNNING step after it, which is an iteration. -/
theorem executeStartsRunFromHere : Obligations.ExecuteStartsRunFromHere := by
  intro s rest hr hcs
  refine ⟨step_of_execute hr hcs, ?_⟩
  rw [run_two_of_execute hr hcs]
  exact step_of_running rfl

/-- Settles O42: the READY step without and with a command, the refusal while RUNNING, and the commands left behind. -/
theorem hostCommandsAreServedInOrder : Obligations.HostCommandsAreServedInOrder :=
  ⟨fun _ => step_of_idle, fun _ _ _ => step_of_command, fun c _ => issue_of_running c,
    fun _ _ _ => issue_keeps_commands⟩

/-- Settles O43: the tables of codes, the reads while READY, and those that give nothing. -/
theorem observationWhileReady : Obligations.ObservationWhileReady := by
  refine ⟨rfl, rfl, rfl, fun s hr => ?_, fun _ p => observe_of_running p, fun _ _ => observe_cell_of_le⟩
  obtain ⟨hpc, hsp, hengine, hresp⟩ := observe_registers hr
  exact ⟨hpc, hsp, hengine, hresp, fun _ => observe_cell_of_lt hr⟩

/-- Settles O44: SET_ADDRESS leaves the `pc` at which INSERT stores; the address is below the largest field, so `pc + 1`
does not wrap. -/
theorem setAddressThenInsertPlacesThere : Obligations.SetAddressThenInsertPlacesThere := by
  rintro s a tok d rest ⟨-, hmax, -⟩ hr hl hd hcs
  have hbound : a < 2 ^ 63 - 1 := Nat.lt_of_lt_of_le hl hmax
  have hv : sintW (BitVec.ofNat 64 a) = a := sintW_ofNat (by omega)
  have hsucc : sintW (BitVec.ofNat 64 a + 1) = a + 1 := by rw [sintW_add_one (by omega) (by omega), hv]
  have hset := step_of_setAddress hr hcs hv hl
  have hinsert := step_of_insert
    (s := ((s.setCommands (.insert ⟨true, tok⟩ d :: rest)).setPc (BitVec.ofNat 64 a)).respond Resp.okay) hr rfl hv hl
  refine ⟨_, (run_succ_of_next hset).trans ((run_one _).trans hinsert), hsucc, ?_, fun b hb => ?_, rfl, rfl, rfl, rfl⟩
  · rw [storedOperand_of_canonical hd]
    exact Memory.read_write_same s.mem a (.instr tok d)
  · exact Memory.read_write_other s.mem a (.instr tok (storedOperand d)) hb

end Sys2Proof.Proofs
end
